-- ==== Sys2Proof/Word.lean ====
section
/-!
DEFINITION. The bit-vector types of the machine, by the widths of rule R10 (00_scope.md).
-/

namespace Sys2Proof

/-- 8 bits: a general register, a timer, a memory byte (R10). -/
abbrev Byte := BitVec 8

/-- 16 bits: an instruction word, PC, SP (R10, R100). -/
abbrev Word := BitVec 16

/-- 12 bits: the index register and the immediate NNN (R34, R101). -/
abbrev Addr := BitVec 12

/-- 4 bits: a nibble of an instruction, a register number, a key index (R101, R41). -/
abbrev Nibble := BitVec 4

end Sys2Proof
end

