-- ==== Sys2Proof/Config.lean ====
section
/-!
DEFINITION. What the spec leaves open (00_scope.md R11): the keymap and the random bytes are constants without a
body, so that nothing can be proved about their values. The third parameter, FONT, is the argument of
`State.resetWith` (Machine/Ops.lean).
-/

namespace Sys2Proof

/-- KEYMAP (R11, D16): the index of the key a raw input byte stands for, or none where the byte is unmapped.
The spec gives no byte values: an OPEN parameter, free here (log entry 2). -/
opaque Config.keymap : Byte → Option Nibble

/-- RAND (R11, R191, R323, D15): the byte drawn by the n-th execution of CXNN, free and under no law (log entry 3). -/
opaque Config.rand : Nat → Byte

end Sys2Proof
end

