-- ==== Sys2Proof/Syntax.lean ====
section
/-!
DEFINITION. The 34 instruction forms of rule R112 (30_encoding.md), one constructor per row of
spec/opcode_table.json, in the table's order.
-/

namespace Sys2Proof

/-- The supported forms (R112; 34 by C1). `x` and `y` are register numbers, `n`, `nn` and `nnn` immediates of 4, 8
and 12 bits (R101, R103). 8XY6 and 8XYE carry no Y: any Y selects the form and nothing reads it (R102, R115). -/
inductive Instr where
  /-- 00E0: clear the display (R252). -/
  | cls
  /-- 00EE: return from subroutine (R140). -/
  | ret
  /-- 1NNN: jump (R141). -/
  | jp (nnn : Addr)
  /-- 2NNN: call subroutine (R142). -/
  | call (nnn : Addr)
  /-- 3XNN: skip if equal to immediate (R160). -/
  | seImm (x : Nibble) (nn : Byte)
  /-- 4XNN: skip if not equal to immediate (R161). -/
  | sneImm (x : Nibble) (nn : Byte)
  /-- 5XY0: skip if registers equal (R162). -/
  | seReg (x y : Nibble)
  /-- 6XNN: load immediate (R180). -/
  | ldImm (x : Nibble) (nn : Byte)
  /-- 7XNN: add immediate (R181). -/
  | addImm (x : Nibble) (nn : Byte)
  /-- 8XY0: copy register (R182). -/
  | ldReg (x y : Nibble)
  /-- 8XY1: bitwise OR (R183). -/
  | orReg (x y : Nibble)
  /-- 8XY2: bitwise AND (R184). -/
  | andReg (x y : Nibble)
  /-- 8XY3: bitwise exclusive OR (R185). -/
  | xorReg (x y : Nibble)
  /-- 8XY4: add with carry out (R186). -/
  | addReg (x y : Nibble)
  /-- 8XY5: subtract (R187). -/
  | sub (x y : Nibble)
  /-- 8XY6: shift right by one (R188). -/
  | shr (x : Nibble)
  /-- 8XY7: reverse subtract (R189). -/
  | subn (x y : Nibble)
  /-- 8XYE: shift left by one (R190). -/
  | shl (x : Nibble)
  /-- 9XY0: skip if registers differ (R163). -/
  | sneReg (x y : Nibble)
  /-- ANNN: load index (R220). -/
  | ldI (nnn : Addr)
  /-- BNNN: jump with offset V0 (R143). -/
  | jpV0 (nnn : Addr)
  /-- CXNN: random byte under a mask (R191). -/
  | rnd (x : Nibble) (nn : Byte)
  /-- DXYN: draw sprite (R253). -/
  | drw (x y n : Nibble)
  /-- EX9E: skip if key (R164). -/
  | skp (x : Nibble)
  /-- EXA1: skip if not key (R165). -/
  | sknp (x : Nibble)
  /-- FX07: read delay timer (R280). -/
  | ldVxDt (x : Nibble)
  /-- FX0A: wait for a key (R283). -/
  | ldVxK (x : Nibble)
  /-- FX15: set delay timer (R281). -/
  | ldDtVx (x : Nibble)
  /-- FX18: set sound timer (R282). -/
  | ldStVx (x : Nibble)
  /-- FX1E: add to index (R221). -/
  | addI (x : Nibble)
  /-- FX29: point I at a font glyph (R222). -/
  | ldF (x : Nibble)
  /-- FX33: store decimal digits (R223). -/
  | ldB (x : Nibble)
  /-- FX55: store registers V0..V[X] (R224). -/
  | storeRegs (x : Nibble)
  /-- FX65: load registers V0..V[X] (R225). -/
  | loadRegs (x : Nibble)
  deriving DecidableEq, Repr

end Sys2Proof
end

