-- ==== Sys2Proof/WellFormed.lean ====
section
/-!
DEFINITION. What is checked of an instruction and of a program before they are used.
-/

namespace Sys2Proof

/-- Every instruction term is well formed: the types of its fields are exactly the operand ranges of R101 and R103
(4-bit register numbers and N, 8-bit NN, 12-bit NNN), so no term can hold an operand the encoding does not admit. -/
def Instr.wellFormed : Instr → Bool
  | .cls | .ret | .jp _ | .call _ | .seImm _ _ | .sneImm _ _ | .seReg _ _ | .ldImm _ _ | .addImm _ _
  | .ldReg _ _ | .orReg _ _ | .andReg _ _ | .xorReg _ _ | .addReg _ _ | .sub _ _ | .shr _ | .subn _ _ | .shl _
  | .sneReg _ _ | .ldI _ | .jpV0 _ | .rnd _ _ | .drw _ _ _ | .skp _ | .sknp _ | .ldVxDt _ | .ldVxK _ | .ldDtVx _
  | .ldStVx _ | .addI _ | .ldF _ | .ldB _ | .storeRegs _ | .loadRegs _ => true

/-- A program image fits: loaded at 0x200 its last byte lies at 0xFFF or below, at most 3584 bytes (R353, D26). -/
def programFits (bytes : List Byte) : Bool := decide (0x200 + bytes.length ≤ 0x1000)

end Sys2Proof
end

