-- ==== Sys2Proof/Decode.lean ====
section
/-!
DEFINITION. The decoder of 30_encoding.md R100-R114, a total function on words and on bytes which rejects by name;
after it the encoder, from the same patterns, and the opcode table of R112 (match and mask), an independent
transcription the decoder is compared with.
-/

namespace Sys2Proof

/-! ## The bytes and the fields of a word (R77, R101) -/

/-- The high byte of a 16-bit value. -/
def Word.hi (w : Word) : Byte := w.extractLsb' 8 8

/-- The low byte of a 16-bit value. -/
def Word.lo (w : Word) : Byte := w.extractLsb' 0 8

/-- n3 = w[15:12], the major opcode. -/
def fieldOp (w : Word) : Nibble := w.extractLsb' 12 4

/-- n2 = w[11:8], X. -/
def fieldX (w : Word) : Nibble := w.extractLsb' 8 4

/-- n1 = w[7:4], Y. -/
def fieldY (w : Word) : Nibble := w.extractLsb' 4 4

/-- n0 = w[3:0], N. -/
def fieldN (w : Word) : Nibble := w.extractLsb' 0 4

/-- NN = w[7:0]. -/
def fieldNN (w : Word) : Byte := w.extractLsb' 0 8

/-- NNN = w[11:0]. -/
def fieldNNN (w : Word) : Addr := w.extractLsb' 0 12

/-! ## Decoding (R104, R110, R111) -/

/-- Leading nibble 0: only 00E0 and 00EE. -/
def decodeZero (w : Word) : Option Instr :=
  if w = 0x00E0 then some .cls
  else if w = 0x00EE then some .ret
  else none

/-- Leading nibble 8: N selects the operation. -/
def decodeEight (x y n : Nibble) : Option Instr :=
  match n with
  | 0x0 => some (.ldReg x y)
  | 0x1 => some (.orReg x y)
  | 0x2 => some (.andReg x y)
  | 0x3 => some (.xorReg x y)
  | 0x4 => some (.addReg x y)
  | 0x5 => some (.sub x y)
  | 0x6 => some (.shr x)
  | 0x7 => some (.subn x y)
  | 0xE => some (.shl x)
  | _ => none

/-- Leading nibble E: NN selects 9E or A1. -/
def decodeKeySkip (x : Nibble) (nn : Byte) : Option Instr :=
  match nn with
  | 0x9E => some (.skp x)
  | 0xA1 => some (.sknp x)
  | _ => none

/-- Leading nibble F: NN selects the operation. -/
def decodeMisc (x : Nibble) (nn : Byte) : Option Instr :=
  match nn with
  | 0x07 => some (.ldVxDt x)
  | 0x0A => some (.ldVxK x)
  | 0x15 => some (.ldDtVx x)
  | 0x18 => some (.ldStVx x)
  | 0x1E => some (.addI x)
  | 0x29 => some (.ldF x)
  | 0x33 => some (.ldB x)
  | 0x55 => some (.storeRegs x)
  | 0x65 => some (.loadRegs x)
  | _ => none

/-- The decoder: a pure match over the fields, from the 65536 words to one of the 34 forms, or none for a word of the
Unsupported space (R104, R110, R111, R113). -/
def decode (w : Word) : Option Instr :=
  match fieldOp w with
  | 0x0 => decodeZero w
  | 0x1 => some (.jp (fieldNNN w))
  | 0x2 => some (.call (fieldNNN w))
  | 0x3 => some (.seImm (fieldX w) (fieldNN w))
  | 0x4 => some (.sneImm (fieldX w) (fieldNN w))
  | 0x5 => if fieldN w = 0 then some (.seReg (fieldX w) (fieldY w)) else none
  | 0x6 => some (.ldImm (fieldX w) (fieldNN w))
  | 0x7 => some (.addImm (fieldX w) (fieldNN w))
  | 0x8 => decodeEight (fieldX w) (fieldY w) (fieldN w)
  | 0x9 => if fieldN w = 0 then some (.sneReg (fieldX w) (fieldY w)) else none
  | 0xA => some (.ldI (fieldNNN w))
  | 0xB => some (.jpV0 (fieldNNN w))
  | 0xC => some (.rnd (fieldX w) (fieldNN w))
  | 0xD => some (.drw (fieldX w) (fieldY w) (fieldN w))
  | 0xE => decodeKeySkip (fieldX w) (fieldNN w)
  | _ => decodeMisc (fieldX w) (fieldNN w)

/-- Why bytes do not decode. -/
inductive DecodeError where
  /-- The word is in the Unsupported space (R113). -/
  | unsupported (w : Word)
  /-- Fewer than two bytes are there: every instruction is two bytes (R100). -/
  | truncated
  deriving DecidableEq, Repr

/-- The word two bytes form, the first the high byte (R77, R100). -/
def wordOfBytes (hi lo : Byte) : Word := hi ++ lo

/-- Decoding bytes: the instruction at their head and the bytes after it, or the name of the rejection. -/
def decodeBytes : List Byte → Except DecodeError (Instr × List Byte)
  | hi :: lo :: rest =>
    match decode (wordOfBytes hi lo) with
    | some i => .ok (i, rest)
    | none => .error (.unsupported (wordOfBytes hi lo))
  | _ => .error .truncated

/-! ## Encoding (R101, R102, R112) -/

/-- Four nibbles as a word, the most significant first (R103). -/
def packNibbles (a b c d : Nibble) : Word := a ++ b ++ c ++ d

/-- The word of an instruction: the pattern of its row with the operands in place. Y is 0 in 8XY6 and 8XYE (R115). -/
def encode : Instr → Word
  | .cls => 0x00E0
  | .ret => 0x00EE
  | .jp nnn => (0x1 : Nibble) ++ nnn
  | .call nnn => (0x2 : Nibble) ++ nnn
  | .seImm x nn => (0x3 : Nibble) ++ x ++ nn
  | .sneImm x nn => (0x4 : Nibble) ++ x ++ nn
  | .seReg x y => packNibbles 0x5 x y 0x0
  | .ldImm x nn => (0x6 : Nibble) ++ x ++ nn
  | .addImm x nn => (0x7 : Nibble) ++ x ++ nn
  | .ldReg x y => packNibbles 0x8 x y 0x0
  | .orReg x y => packNibbles 0x8 x y 0x1
  | .andReg x y => packNibbles 0x8 x y 0x2
  | .xorReg x y => packNibbles 0x8 x y 0x3
  | .addReg x y => packNibbles 0x8 x y 0x4
  | .sub x y => packNibbles 0x8 x y 0x5
  | .shr x => packNibbles 0x8 x 0x0 0x6
  | .subn x y => packNibbles 0x8 x y 0x7
  | .shl x => packNibbles 0x8 x 0x0 0xE
  | .sneReg x y => packNibbles 0x9 x y 0x0
  | .ldI nnn => (0xA : Nibble) ++ nnn
  | .jpV0 nnn => (0xB : Nibble) ++ nnn
  | .rnd x nn => (0xC : Nibble) ++ x ++ nn
  | .drw x y n => packNibbles 0xD x y n
  | .skp x => (0xE : Nibble) ++ x ++ (0x9E : Byte)
  | .sknp x => (0xE : Nibble) ++ x ++ (0xA1 : Byte)
  | .ldVxDt x => (0xF : Nibble) ++ x ++ (0x07 : Byte)
  | .ldVxK x => (0xF : Nibble) ++ x ++ (0x0A : Byte)
  | .ldDtVx x => (0xF : Nibble) ++ x ++ (0x15 : Byte)
  | .ldStVx x => (0xF : Nibble) ++ x ++ (0x18 : Byte)
  | .addI x => (0xF : Nibble) ++ x ++ (0x1E : Byte)
  | .ldF x => (0xF : Nibble) ++ x ++ (0x29 : Byte)
  | .ldB x => (0xF : Nibble) ++ x ++ (0x33 : Byte)
  | .storeRegs x => (0xF : Nibble) ++ x ++ (0x55 : Byte)
  | .loadRegs x => (0xF : Nibble) ++ x ++ (0x65 : Byte)

/-- The two bytes of an instruction as memory holds them, the high byte first (R77). -/
def encodeBytes (i : Instr) : List Byte := [Word.hi (encode i), Word.lo (encode i)]

/-! ## The opcode table (R112) -/

/-- One row of the table of R112: a word w selects it when w and mask give value. -/
structure OpcodeRow where
  value : Word
  mask : Word
  deriving DecidableEq, Repr

/-- The row selects the word (R112). -/
def OpcodeRow.selects (r : OpcodeRow) (w : Word) : Bool := w &&& r.mask == r.value

/-- The 34 rows of R112, in its order. -/
def opcodeTable : List OpcodeRow :=
  [⟨0x00E0, 0xFFFF⟩, ⟨0x00EE, 0xFFFF⟩, ⟨0x1000, 0xF000⟩, ⟨0x2000, 0xF000⟩, ⟨0x3000, 0xF000⟩, ⟨0x4000, 0xF000⟩,
   ⟨0x5000, 0xF00F⟩, ⟨0x6000, 0xF000⟩, ⟨0x7000, 0xF000⟩] ++
  [⟨0x8000, 0xF00F⟩, ⟨0x8001, 0xF00F⟩, ⟨0x8002, 0xF00F⟩, ⟨0x8003, 0xF00F⟩, ⟨0x8004, 0xF00F⟩, ⟨0x8005, 0xF00F⟩,
   ⟨0x8006, 0xF00F⟩, ⟨0x8007, 0xF00F⟩, ⟨0x800E, 0xF00F⟩, ⟨0x9000, 0xF00F⟩] ++
  [⟨0xA000, 0xF000⟩, ⟨0xB000, 0xF000⟩, ⟨0xC000, 0xF000⟩, ⟨0xD000, 0xF000⟩, ⟨0xE09E, 0xF0FF⟩, ⟨0xE0A1, 0xF0FF⟩] ++
  [⟨0xF007, 0xF0FF⟩, ⟨0xF00A, 0xF0FF⟩, ⟨0xF015, 0xF0FF⟩, ⟨0xF018, 0xF0FF⟩, ⟨0xF01E, 0xF0FF⟩, ⟨0xF029, 0xF0FF⟩,
   ⟨0xF033, 0xF0FF⟩, ⟨0xF055, 0xF0FF⟩, ⟨0xF065, 0xF0FF⟩]

/-- The row of R112 that gives an instruction its encoding. -/
def rowOf : Instr → OpcodeRow
  | .cls => ⟨0x00E0, 0xFFFF⟩
  | .ret => ⟨0x00EE, 0xFFFF⟩
  | .jp _ => ⟨0x1000, 0xF000⟩
  | .call _ => ⟨0x2000, 0xF000⟩
  | .seImm _ _ => ⟨0x3000, 0xF000⟩
  | .sneImm _ _ => ⟨0x4000, 0xF000⟩
  | .seReg _ _ => ⟨0x5000, 0xF00F⟩
  | .ldImm _ _ => ⟨0x6000, 0xF000⟩
  | .addImm _ _ => ⟨0x7000, 0xF000⟩
  | .ldReg _ _ => ⟨0x8000, 0xF00F⟩
  | .orReg _ _ => ⟨0x8001, 0xF00F⟩
  | .andReg _ _ => ⟨0x8002, 0xF00F⟩
  | .xorReg _ _ => ⟨0x8003, 0xF00F⟩
  | .addReg _ _ => ⟨0x8004, 0xF00F⟩
  | .sub _ _ => ⟨0x8005, 0xF00F⟩
  | .shr _ => ⟨0x8006, 0xF00F⟩
  | .subn _ _ => ⟨0x8007, 0xF00F⟩
  | .shl _ => ⟨0x800E, 0xF00F⟩
  | .sneReg _ _ => ⟨0x9000, 0xF00F⟩
  | .ldI _ => ⟨0xA000, 0xF000⟩
  | .jpV0 _ => ⟨0xB000, 0xF000⟩
  | .rnd _ _ => ⟨0xC000, 0xF000⟩
  | .drw _ _ _ => ⟨0xD000, 0xF000⟩
  | .skp _ => ⟨0xE09E, 0xF0FF⟩
  | .sknp _ => ⟨0xE0A1, 0xF0FF⟩
  | .ldVxDt _ => ⟨0xF007, 0xF0FF⟩
  | .ldVxK _ => ⟨0xF00A, 0xF0FF⟩
  | .ldDtVx _ => ⟨0xF015, 0xF0FF⟩
  | .ldStVx _ => ⟨0xF018, 0xF0FF⟩
  | .addI _ => ⟨0xF01E, 0xF0FF⟩
  | .ldF _ => ⟨0xF029, 0xF0FF⟩
  | .ldB _ => ⟨0xF033, 0xF0FF⟩
  | .storeRegs _ => ⟨0xF055, 0xF0FF⟩
  | .loadRegs _ => ⟨0xF065, 0xF0FF⟩

/-! ## The host's question about a word of the table -/

/-- The instruction the decoder reads from an instruction whose bits are w, bit 0 the least significant bit of the
word (the machine has one 16-bit word per instruction, R100, stored high byte first, R77). -/
def decodeTableWord (nbits w : Nat) : Option Instr :=
  let word : Word := BitVec.ofNat 16 (w % 2 ^ nbits)
  match decodeBytes [Word.hi word, Word.lo word] with
  | .ok (i, _) => some i
  | .error _ => none

end Sys2Proof
end

