-- ==== Sys2Proof/Machine/State.lean ====
section
/-!
DEFINITION. The state of the machine (10_state.md), memory as a list of cells in one canonical form (20_memory.md),
the reasons a step can stop, and the machine after reset (R45, R350).
-/

namespace Sys2Proof.Machine

/-- The two faults (R301). A fault is fatal and precise (R300, R304): the outcome carries no state, so no claim can
read a faulted machine's registers. -/
inductive Fault where
  /-- The word `w` at `pc` decodes to no supported form. Raised by the execution step after the fetch (R302), and by
  every later step of the faulted machine (R305). Safe: the spec's own fault. -/
  | unsupported (pc w : Word)
  /-- A byte access at `addr`, above 0xFFF, by the instruction at `pc`; the first such address. Raised by the fetch,
  00EE, 2NNN, DXYN, FX33, FX55, FX65 (R303), and by every later step of the faulted machine (R305). Safe: where the
  original wraps instead, the model stops (D2). -/
  | outOfRange (pc : Word) (addr : Nat)
  deriving DecidableEq, Repr

/-- Why the machine refuses to go on without a fault of the block. -/
inductive Refusal where
  /-- An instruction without a meaning yet: raised by `exec` alone, in its arm. Safe. -/
  | notModelled (mnemonic : String)
  /-- The program of `length` bytes does not fit above 0x200: raised by the host event Load (R353, D26); there is no
  run. Safe: the spec's own failure of the loader. -/
  | loadTooLarge (length : Nat)
  deriving DecidableEq, Repr

/-- The run status (R42). -/
inductive Status where
  /-- The next host Step executes one instruction. -/
  | running
  /-- FX0A with register number `x` waits for a mapped key byte (R284). -/
  | blocked (x : Nibble)
  /-- The fault was raised and the run is over (R305). -/
  | faulted (f : Fault)
  deriving DecidableEq, Repr

/-- The transactions of the host (R320). -/
inductive HostEvent where
  /-- Copy the program to 0x200 onward (R353). -/
  | load (bytes : List Byte)
  /-- One execution step (R321). -/
  | step
  /-- The timers count down (R322). -/
  | tick
  /-- KEY takes a key index already mapped (R324). -/
  | setKey (k : Nibble)
  /-- One raw input byte for a waiting FX0A (R284). -/
  | rawByte (b : Byte)
  /-- The host stops calling the block (R328). -/
  | stop
  deriving DecidableEq, Repr

/-! ## Memory -/

/-- The 4096 bytes (R70): cells with strictly rising addresses, none equal to what an unlisted address reads as
(`Memory.wf` in Machine/Ops.lean). -/
abbrev Memory := List Host.Cell

/-! ## The state -/

/-- Everything the spec gives the machine, and three fields of the model's own. -/
structure State where
  /-- V0..VF (R30); VF, number 15, is the flag register too (R32). -/
  v : Vector Byte 16
  /-- I (R34). -/
  index : Addr
  /-- PC (R35). -/
  pc : Word
  /-- SP (R38). -/
  sp : Word
  /-- DT (R39). -/
  dt : Byte
  /-- ST (R40). -/
  st : Byte
  /-- KEY (R41). -/
  key : Nibble
  /-- The run status (R42). -/
  status : Status
  /-- Memory (R70, R71): font, framebuffer, stack and program in one array. -/
  mem : Memory
  /-- The model's own: how many bytes CXNN has drawn, the index of the next one in `Config.rand` (R191, log entry 3). -/
  draws : Nat
  /-- The model's own: the host's coming events, oldest first; the host goes on with Steps when none is left
  (R320, R328, log entry 4). -/
  hostEvents : List HostEvent
  /-- The model's own: no Load and no Step has happened yet, so a Load is still allowed (R320, log entry 6). -/
  loadable : Bool
  deriving DecidableEq, Repr

/-- The machine right after reset (R45, R350, R351): registers zeroed, SP 0x150, PC 0x200, Running, and memory as
reset leaves it, with the default FONT of R352 (nothing listed: `unlisted` in Machine/Ops.lean; log entries 1 and 9).
`State.resetWith` is the same machine with any FONT. -/
def State.reset : State where
  v := Vector.replicate 16 0
  index := 0
  pc := 0x200
  sp := 0x150
  dt := 0
  st := 0
  key := 0
  status := .running
  mem := []
  draws := 0
  hostEvents := []
  loadable := true

end Sys2Proof.Machine
end

