-- ==== Sys2Proof/Machine/Ops.lean ====
section
/-!
DEFINITION. The named operations every meaning is written with: memory and its canonical form, registers, the checked
byte accesses (20_memory.md R70-R80), raising a fault (60_exceptions.md R300-R307), the next PC (R121), the random
draw (R191), and the fetch (R120).
-/

namespace Sys2Proof.Machine

/-- The three outcomes, over this machine. -/
abbrev Result := Host.Outcome State Fault Refusal

/-! ## Memory (R70, R71) -/

/-- The default of the parameter FONT (R352, D9): glyph k is the bytes 5k..5k+4.
PRESUMED: the spec takes these bytes from general knowledge (G4); a claim that must not depend on them speaks of
`State.resetWith` and every font (log entry 1). -/
def defaultFont : List Byte :=
  [0xF0, 0x90, 0x90, 0x90, 0xF0] ++ -- 0
  [0x20, 0x60, 0x20, 0x20, 0x70] ++ -- 1
  [0xF0, 0x10, 0xF0, 0x80, 0xF0] ++ -- 2
  [0xF0, 0x10, 0xF0, 0x10, 0xF0] ++ -- 3
  [0x90, 0x90, 0xF0, 0x10, 0x10] ++ -- 4
  [0xF0, 0x80, 0xF0, 0x10, 0xF0] ++ -- 5
  [0xF0, 0x80, 0xF0, 0x90, 0xF0] ++ -- 6
  [0xF0, 0x10, 0x20, 0x40, 0x40] ++ -- 7
  [0xF0, 0x90, 0xF0, 0x90, 0xF0] ++ -- 8
  [0xF0, 0x90, 0xF0, 0x10, 0xF0] ++ -- 9
  [0xF0, 0x90, 0xF0, 0x90, 0x90] ++ -- A
  [0xE0, 0x90, 0xE0, 0x90, 0xE0] ++ -- B
  [0xF0, 0x80, 0x80, 0x80, 0xF0] ++ -- C
  [0xE0, 0x90, 0x90, 0x90, 0xE0] ++ -- D
  [0xF0, 0x80, 0xF0, 0x80, 0xF0] ++ -- E
  [0xF0, 0x80, 0xF0, 0x80, 0x80]    -- F

/-- How many bytes memory has (R70). -/
def memorySize : Nat := 0x1000

/-- What a byte that no cell lists reads as: its contents after reset, the default FONT at 0x000-0x04F (R352, log
entry 1) and 0x00 everywhere else (R45, D8, log entry 9). -/
def unlisted (a : Nat) : Byte := (defaultFont[a]?).getD 0

/-- The byte at an address. -/
def Memory.read : Memory → Nat → Byte
  | [], a => unlisted a
  | (b, v) :: m, a => if a = b then v else Memory.read m a

/-- The cells but those at an address. -/
def Memory.erase : Memory → Nat → Memory
  | [], _ => []
  | (b, v) :: m, a => if a = b then Memory.erase m a else (b, v) :: Memory.erase m a

/-- A cell put in before the first cell of a higher address. -/
def Memory.insert : Memory → Nat → Byte → Memory
  | [], a, v => [(a, v)]
  | (b, w) :: m, a, v => if a < b then (a, v) :: (b, w) :: m else (b, w) :: Memory.insert m a v

/-- Writing a byte; writing what an unlisted address reads as removes the cell, so the form stays canonical. -/
def Memory.write (m : Memory) (a : Nat) (v : Byte) : Memory :=
  if v = unlisted a then Memory.erase m a else Memory.insert (Memory.erase m a) a v

/-- Consecutive bytes written from an address upward. -/
def Memory.writeAll (m : Memory) (a : Nat) : List Byte → Memory
  | [] => m
  | b :: bs => Memory.writeAll (Memory.write m a b) (a + 1) bs

/-- Every cell from `low` on: addresses strictly rising and inside memory, no cell equal to its unlisted value. -/
def Memory.wfFrom : Nat → Memory → Bool
  | _, [] => true
  | low, (b, v) :: m =>
    decide (low ≤ b) && decide (b < memorySize) && decide (v ≠ unlisted b) && Memory.wfFrom (b + 1) m

/-- The canonical form. -/
def Memory.wf (m : Memory) : Bool := Memory.wfFrom 0 m

/-! ## Registers -/

/-- V[r] (R14, R30). -/
def State.reg (s : State) (r : Nibble) : Byte := s.v[r.toNat]'r.isLt

/-- V[r] <- b (R14, R30). -/
def State.setReg (s : State) (r : Nibble) (b : Byte) : State := { s with v := s.v.set r.toNat b r.isLt }

/-- V[k] <- first byte, V[k+1] <- second, and so on. -/
def State.setRegsFrom (s : State) (k : Nat) : List Byte → State
  | [] => s
  | b :: bs => (s.setReg (BitVec.ofNat 4 k) b).setRegsFrom (k + 1) bs

/-- V[0], V[1], ..., V[n-1]. -/
def State.regsBelow (s : State) (n : Nat) : List Byte := (List.range n).map fun k => s.reg (BitVec.ofNat 4 k)

/-- I <- a (R34). -/
def State.setIndex (s : State) (a : Addr) : State := { s with index := a }

/-- Memory replaced as a whole. -/
def State.setMem (s : State) (m : Memory) : State := { s with mem := m }

/-- The machine after reset with any FONT (R11, R350): reset, with the first 80 bytes given copied to 0x000-0x04F. -/
def State.resetWith (font : List Byte) : State :=
  State.reset.setMem (Memory.writeAll [] 0 (font.take 80))

/-! ## The next PC (R37, R121) -/

/-- The default: PC <- PC + 2. -/
def State.advance (s : State) : State := { s with pc := s.pc + 2 }

/-- PC <- PC + 4 where the condition holds, else PC + 2 (41_skips.md). -/
def State.skipIf (s : State) (c : Bool) : State := { s with pc := s.pc + if c then 4 else 2 }

/-- PC <- target. -/
def State.jump (s : State) (target : Word) : State := { s with pc := target }

/-! ## Faults (R300, R301, R304) -/

/-- Raising a fault ends the run: no register, no memory byte and no PC changes (R304). The block has no trap: nothing
is saved, no handler is entered, and there is no return (R300, R309). -/
def raise (f : Fault) : Result := .fault f

/-- The machine a raised fault leaves: the status is Faulted and nothing else changed (R304). -/
def State.recordFault (s : State) (f : Fault) : State := { s with status := .faulted f }

/-- Go on with the value of an access, or raise its fault. -/
def attempt {α : Type} (access : Except Fault α) (go : α → Result) : Result :=
  match access with
  | .ok a => go a
  | .error f => raise f

/-! ## Checked accesses (R74, R75, R79) -/

/-- The byte at `a`; OutOfRange above 0xFFF. -/
def State.readByte (s : State) (a : Nat) : Except Fault Byte :=
  if a < memorySize then .ok (s.mem.read a) else .error (.outOfRange s.pc a)

/-- The `n` bytes from `a` upward, lowest first; OutOfRange at the first address above 0xFFF. -/
def State.readBytes (s : State) (a : Nat) : Nat → Except Fault (List Byte)
  | 0 => .ok []
  | n + 1 =>
    match s.readByte a with
    | .error f => .error f
    | .ok b =>
      match s.readBytes (a + 1) n with
      | .error f => .error f
      | .ok bs => .ok (b :: bs)

/-- Byte `b` stored at `a`; OutOfRange above 0xFFF. -/
def State.writeByte (s : State) (a : Nat) (b : Byte) : Except Fault State :=
  if a < memorySize then .ok (s.setMem (s.mem.write a b)) else .error (.outOfRange s.pc a)

/-- The bytes stored from `a` upward, lowest first; OutOfRange at the first address above 0xFFF. -/
def State.writeBytes (s : State) (a : Nat) : List Byte → Except Fault State
  | [] => .ok s
  | b :: bs =>
    match s.writeByte a b with
    | .error f => .error f
    | .ok t => t.writeBytes (a + 1) bs

/-- A 16-bit value, its high byte at `a` (R77). -/
def State.readWord (s : State) (a : Nat) : Except Fault Word :=
  match s.readByte a with
  | .error f => .error f
  | .ok hi =>
    match s.readByte (a + 1) with
    | .error f => .error f
    | .ok lo => .ok (wordOfBytes hi lo)

/-- A 16-bit value stored, its high byte at `a` (R77). -/
def State.writeWord (s : State) (a : Nat) (w : Word) : Except Fault State := s.writeBytes a [Word.hi w, Word.lo w]

/-- The instruction word at PC (R100, R120). -/
def State.fetch (s : State) : Except Fault Word := s.readWord s.pc.toNat

/-! ## The random draw (R14, R191, R323) -/

/-- The next random byte: free, `Config.rand` at the number of draws made (log entry 3). -/
def State.drawnByte (s : State) : Byte := Config.rand s.draws

/-- The draw is used up. -/
def State.countDraw (s : State) : State := { s with draws := s.draws + 1 }

end Sys2Proof.Machine
end

