-- ==== Sys2Proof/Machine/Operands.lean ====
section
/-!
DEFINITION. The operand forms: implied registers, the one addressing mode I+k (43_index_memory.md), the stack slots
(R38), immediates and KEY widened (R103, R41), decimal digits (R223), sprite coordinates (R253).
-/

namespace Sys2Proof.Machine

/-- VF, the flag register (R32). -/
def flagReg : Nibble := 0xF

/-- V0, implied in BNNN (R143). -/
def offsetReg : Nibble := 0x0

/-- The address I, the base of every I-relative access; byte k of one lies at this plus k, without wrap (R74). -/
def State.indexAddr (s : State) : Nat := s.index.toNat

/-- How many registers FX55 and FX65 move: V0..V[X] (R224, R225). -/
def regCount (x : Nibble) : Nat := x.toNat + 1

/-- Where a pop reads its two bytes (R140). -/
def State.popSlot (s : State) : Nat := s.sp.toNat

/-- SP after a push (R142): (SP + 2) mod 2^16. -/
def State.pushedSp (s : State) : Word := s.sp + 2

/-- Where a push writes its two bytes: SP after the increment (R38, R142). -/
def State.pushSlot (s : State) : Nat := s.pushedSp.toNat

/-- The return address a call pushes (R142). -/
def State.returnAddress (s : State) : Word := s.pc + 2

/-- NNN widened to the PC's 16 bits (R103). -/
def zext16 (nnn : Addr) : Word := nnn.setWidth 16

/-- KEY widened to a register's 8 bits (R41). -/
def State.keyByte (s : State) : Byte := s.key.setWidth 8

/-- The hundreds, tens and units of a byte (R223). -/
def decimalDigits (v : Byte) : List Byte := [v / 100, (v / 10) % 10, v % 10]

/-- The origin's column, wrapped (R253). -/
def originX (v : Byte) : Nat := v.toNat % 64

/-- The origin's row, wrapped (R253). -/
def originY (v : Byte) : Nat := v.toNat % 32

end Sys2Proof.Machine
end

