-- ==== Sys2Proof/Machine/Flags.lean ====
section
/-!
DEFINITION. The flag computations, and how VF takes a flag: last, so that it wins over a result in VF (R15, R32, C2).
-/

namespace Sys2Proof.Machine

/-- The carry of 8XY4: the sum exceeds 255 (R186). -/
def carry (a b : Byte) : Bool := decide (255 < a.toNat + b.toNat)

/-- The "borrow" flag of 8XY5 and 8XY7: the minuend strictly exceeds the subtrahend (R187, R189, C6). -/
def exceeds (minuend subtrahend : Byte) : Bool := decide (subtrahend.toNat < minuend.toNat)

/-- The bit 8XY6 shifts out (R188). -/
def lowBit (a : Byte) : Bool := a.getLsbD 0

/-- The bit 8XYE shifts out (R190). -/
def highBit (a : Byte) : Bool := a.getLsbD 7

/-- A flag as VF holds it, 0 or 1 (R32). -/
def flagByte (c : Bool) : Byte := if c then 1 else 0

/-- VF <- flag. -/
def State.setFlag (s : State) (c : Bool) : State := s.setReg flagReg (flagByte c)

/-- A result in V[x] and then a flag in VF, which wins where x is VF (R15, C2). -/
def State.setResultAndFlag (s : State) (x : Nibble) (result : Byte) (c : Bool) : State :=
  (s.setReg x result).setFlag c

end Sys2Proof.Machine
end

