-- ==== Sys2Proof/Machine/ArithLogic.lean ====
section
/-!
DEFINITION. Register arithmetic and logic, 42_arith_logic.md: 6XNN, 7XNN, 8XY0-8XY7, 8XYE, CXNN. All on unsigned 8-bit
values, modulo 256 (R179); operands are read before anything is written (R15).
-/

namespace Sys2Proof.Machine

/-- 6XNN (R180). -/
def execLdImm (x : Nibble) (nn : Byte) (s : State) : Result := .next (s.setReg x nn).advance

/-- 7XNN (R181): VF unaffected. -/
def execAddImm (x : Nibble) (nn : Byte) (s : State) : Result := .next (s.setReg x (s.reg x + nn)).advance

/-- 8XY0 (R182). -/
def execLdReg (x y : Nibble) (s : State) : Result := .next (s.setReg x (s.reg y)).advance

/-- 8XY1 (R183): VF is not reset (D13, log entry 13). -/
def execOrReg (x y : Nibble) (s : State) : Result := .next (s.setReg x (s.reg x ||| s.reg y)).advance

/-- 8XY2 (R184): VF is not reset (D13, log entry 13). -/
def execAndReg (x y : Nibble) (s : State) : Result := .next (s.setReg x (s.reg x &&& s.reg y)).advance

/-- 8XY3 (R185): VF is not reset (D13, log entry 13). -/
def execXorReg (x y : Nibble) (s : State) : Result := .next (s.setReg x (s.reg x ^^^ s.reg y)).advance

/-- 8XY4 (R186). -/
def execAddReg (x y : Nibble) (s : State) : Result :=
  .next (s.setResultAndFlag x (s.reg x + s.reg y) (carry (s.reg x) (s.reg y))).advance

/-- 8XY5 (R187). -/
def execSub (x y : Nibble) (s : State) : Result :=
  .next (s.setResultAndFlag x (s.reg x - s.reg y) (exceeds (s.reg x) (s.reg y))).advance

/-- 8XY6 (R188): Y is ignored. -/
def execShr (x : Nibble) (s : State) : Result :=
  .next (s.setResultAndFlag x (s.reg x >>> 1) (lowBit (s.reg x))).advance

/-- 8XY7 (R189). -/
def execSubn (x y : Nibble) (s : State) : Result :=
  .next (s.setResultAndFlag x (s.reg y - s.reg x) (exceeds (s.reg y) (s.reg x))).advance

/-- 8XYE (R190): Y is ignored. -/
def execShl (x : Nibble) (s : State) : Result :=
  .next (s.setResultAndFlag x (s.reg x <<< 1) (highBit (s.reg x))).advance

/-- CXNN (R191): a fresh free byte under the mask (log entry 3). -/
def execRnd (x : Nibble) (nn : Byte) (s : State) : Result :=
  .next (s.countDraw.setReg x (s.drawnByte &&& nn)).advance

end Sys2Proof.Machine
end

