-- ==== Sys2Proof/Machine/ControlFlow.lean ====
section
/-!
DEFINITION. Control transfer, 40_control_flow.md: 00EE, 1NNN, 2NNN, BNNN.
-/

namespace Sys2Proof.Machine

/-- 00EE (R140). -/
def execRet (s : State) : Result :=
  attempt (s.readWord s.popSlot) fun target => .next ({ s with sp := s.sp - 2 }.jump target)

/-- 1NNN (R141). -/
def execJp (nnn : Addr) (s : State) : Result := .next (s.jump (zext16 nnn))

/-- 2NNN (R142). -/
def execCall (nnn : Addr) (s : State) : Result :=
  attempt (s.writeWord s.pushSlot s.returnAddress) fun t => .next ({ t with sp := s.pushedSp }.jump (zext16 nnn))

/-- BNNN (R143): not masked to 12 bits (R36). -/
def execJpV0 (nnn : Addr) (s : State) : Result :=
  .next (s.jump ((s.reg offsetReg).setWidth 16 + zext16 nnn))

end Sys2Proof.Machine
end

