-- ==== Sys2Proof/Machine/Display.lean ====
section
/-!
DEFINITION. The display, 44_display.md: the framebuffer's pixels (R250, R251), 00E0 and DXYN, and the half-block view
the block puts out (R255, R256).
-/

namespace Sys2Proof.Machine

/-! ## Pixels (R250, R251; the bit order is the spec's decision D10, log entry 11) -/

/-- Where the framebuffer begins. -/
def framebufferBase : Nat := 0x050

/-- How many bytes it has: 32 rows of 8. -/
def framebufferSize : Nat := 256

/-- The columns and the rows of the display. -/
def columns : Nat := 64

/-- The rows of the display. -/
def rows : Nat := 32

/-- The byte that holds pixel (x, y). -/
def pixelAddr (x y : Nat) : Nat := framebufferBase + 8 * y + x / 8

/-- The bit of that byte: the leftmost pixel is its most significant bit. -/
def pixelBit (x : Nat) : Nat := 7 - x % 8

/-- The pixel is on. -/
def pixel (m : Memory) (x y : Nat) : Bool := (m.read (pixelAddr x y)).getLsbD (pixelBit x)

/-- One bit of a byte set to a value, the other bits unchanged. -/
def putBit (b : Byte) (k : Nat) (p : Bool) : Byte :=
  if p then b ||| (1 : Byte) <<< k else b &&& ~~~((1 : Byte) <<< k)

/-- Pixel (x, y) written. -/
def setPixel (m : Memory) (x y : Nat) (p : Bool) : Memory :=
  m.write (pixelAddr x y) (putBit (m.read (pixelAddr x y)) (pixelBit x) p)

/-! ## Drawing (R253) -/

/-- What a draw works on: memory, and whether a pixel has gone from on to off. -/
structure Canvas where
  mem : Memory
  hit : Bool
  deriving DecidableEq, Repr

/-- One sprite bit at (x, y): XORed onto the pixel, unless the column is past 63 (clipped). -/
def drawBit (c : Canvas) (x y : Nat) (bit : Bool) : Canvas :=
  if 63 < x then c
  else if bit then
    { mem := setPixel c.mem x y (!pixel c.mem x y), hit := c.hit || pixel c.mem x y }
  else c

/-- The bits of one sprite row from column `k` of the sprite on, `n` of them; bit 7 is the leftmost (D11, log
entry 11). -/
def drawBits (c : Canvas) (x0 y : Nat) (byte : Byte) (k : Nat) : Nat → Canvas
  | 0 => c
  | n + 1 => drawBits (drawBit c (x0 + k) y (byte.getLsbD (7 - k))) x0 y byte (k + 1) n

/-- One sprite row of 8 pixels, unless the row is past 31 (clipped). -/
def drawRow (c : Canvas) (x0 y : Nat) (byte : Byte) : Canvas :=
  if 31 < y then c else drawBits c x0 y byte 0 8

/-- The rows of a sprite, the first at row `y`. -/
def drawRows (c : Canvas) (x0 y : Nat) : List Byte → Canvas
  | [] => c
  | b :: bs => drawRows (drawRow c x0 y b) x0 (y + 1) bs

/-! ## The instructions -/

/-- Every framebuffer byte 0x00. -/
def clearFramebuffer (m : Memory) : Memory := m.writeAll framebufferBase (List.replicate framebufferSize 0)

/-- 00E0 (R252). -/
def execCls (s : State) : Result := .next (s.setMem (clearFramebuffer s.mem)).advance

/-- DXYN (R253): every sprite byte is read before a pixel changes, clipped rows too (D12, log entry 12); the
coordinates are read before the flag is written. -/
def execDrw (x y n : Nibble) (s : State) : Result :=
  attempt (s.readBytes s.indexAddr n.toNat) fun sprite =>
    let c := drawRows ⟨s.mem, false⟩ (originX (s.reg x)) (originY (s.reg y)) sprite
    .next ((s.setMem c.mem).setFlag c.hit).advance

/-! ## The view (R255, R256, R326) -/

/-- The four glyphs of a character cell (R256). -/
inductive Glyph where
  | blank
  | lowerHalf
  | upperHalf
  | full
  deriving DecidableEq, Repr

/-- The glyph of a pair of pixels, the upper one first (R256). -/
def glyphOf (upper lower : Bool) : Glyph :=
  match upper, lower with
  | false, false => .blank
  | false, true => .lowerHalf
  | true, false => .upperHalf
  | true, true => .full

/-- The Unicode code point a glyph's name denotes (R256). PRESUMED: the source names the glyphs only (G3, log
entry 15). -/
def Glyph.codePoint (g : Glyph) : Nat :=
  match g with
  | .blank => 0x0020
  | .lowerHalf => 0x2584
  | .upperHalf => 0x2580
  | .full => 0x2588

/-- Cell (c, p) of the view: rows 2p and 2p+1 of column c (R255). -/
def viewCell (m : Memory) (c p : Nat) : Glyph := glyphOf (pixel m c (2 * p)) (pixel m c (2 * p + 1))

/-- The display output: 16 rows of 64 cells, a function of the framebuffer bytes (R255, R326). -/
def view (m : Memory) : List (List Glyph) :=
  (List.range 16).map fun p => (List.range columns).map fun c => viewCell m c p

end Sys2Proof.Machine
end

