-- ==== Sys2Proof/Machine/IndexMemory.lean ====
section
/-!
DEFINITION. Index register and memory transfers, 43_index_memory.md: ANNN, FX1E, FX29, FX33, FX55, FX65.
-/

namespace Sys2Proof.Machine

/-- ANNN (R220). -/
def execLdI (nnn : Addr) (s : State) : Result := .next (s.setIndex nnn).advance

/-- FX1E (R221): modulo 4096, VF is not written. -/
def execAddI (x : Nibble) (s : State) : Result :=
  .next (s.setIndex (s.index + (s.reg x).setWidth 12)).advance

/-- FX29 (R222): the whole of V[X] is used. -/
def execLdF (x : Nibble) (s : State) : Result := .next (s.setIndex ((s.reg x).setWidth 12 * 5)).advance

/-- FX33 (R223): I is not changed (D14, log entry 13). -/
def execLdB (x : Nibble) (s : State) : Result :=
  attempt (s.writeBytes s.indexAddr (decimalDigits (s.reg x))) fun t => .next t.advance

/-- FX55 (R224): V0 first; I is not changed (D14, log entry 13). -/
def execStoreRegs (x : Nibble) (s : State) : Result :=
  attempt (s.writeBytes s.indexAddr (s.regsBelow (regCount x))) fun t => .next t.advance

/-- FX65 (R225): V0 first; I is not changed (D14, log entry 13). -/
def execLoadRegs (x : Nibble) (s : State) : Result :=
  attempt (s.readBytes s.indexAddr (regCount x)) fun bytes => .next (s.setRegsFrom 0 bytes).advance

end Sys2Proof.Machine
end

