-- ==== Sys2Proof/Machine/Skips.lean ====
section
/-!
DEFINITION. Conditional skips, 41_skips.md: 3XNN, 4XNN, 5XY0, 9XY0, EX9E, EXA1. None looks at the skipped word (R122).
-/

namespace Sys2Proof.Machine

/-- 3XNN (R160). -/
def execSeImm (x : Nibble) (nn : Byte) (s : State) : Result := .next (s.skipIf (s.reg x == nn))

/-- 4XNN (R161). -/
def execSneImm (x : Nibble) (nn : Byte) (s : State) : Result := .next (s.skipIf (s.reg x != nn))

/-- 5XY0 (R162). -/
def execSeReg (x y : Nibble) (s : State) : Result := .next (s.skipIf (s.reg x == s.reg y))

/-- 9XY0 (R163). -/
def execSneReg (x y : Nibble) (s : State) : Result := .next (s.skipIf (s.reg x != s.reg y))

/-- EX9E (R164). -/
def execSkp (x : Nibble) (s : State) : Result := .next (s.skipIf (s.reg x == s.keyByte))

/-- EXA1 (R165). -/
def execSknp (x : Nibble) (s : State) : Result := .next (s.skipIf (s.reg x != s.keyByte))

end Sys2Proof.Machine
end

