-- ==== Sys2Proof/Machine/TimersKeys.lean ====
section
/-!
DEFINITION. Timers and keypad, 45_timers_keys.md: FX07, FX15, FX18, FX0A. What the host does to them is in
HostEvents.lean.
-/

namespace Sys2Proof.Machine

/-- FX07 (R280). -/
def execLdVxDt (x : Nibble) (s : State) : Result := .next (s.setReg x s.dt).advance

/-- FX15 (R281). -/
def execLdDtVx (x : Nibble) (s : State) : Result := .next { s with dt := s.reg x }.advance

/-- FX18 (R282). -/
def execLdStVx (x : Nibble) (s : State) : Result := .next { s with st := s.reg x }.advance

/-- FX0A (R283): the machine is Blocked; PC, registers and memory are unchanged until a mapped byte arrives
(`State.offerKey`). KEY is not consulted (D17, log entry 14). -/
def execLdVxK (x : Nibble) (s : State) : Result := .next { s with status := .blocked x }

end Sys2Proof.Machine
end

