-- ==== Sys2Proof/Machine/HostEvents.lean ====
section
/-!
DEFINITION. What the host's events do (60_exceptions.md R320-R328, R284, R353), but for Step itself, which is in
Execution.lean.
-/

namespace Sys2Proof.Machine

/-- A timer counts down by 1, clamped at 0 (R322). -/
def countDown (t : Byte) : Byte := if t = 0 then 0 else t - 1

/-- Tick (R322). -/
def State.tick (s : State) : State := { s with dt := countDown s.dt, st := countDown s.st }

/-- The key index an input of one cycle stands for: 0 for "no key" and for an unmapped byte (R324). -/
def keyOfInput (input : Option Byte) : Nibble :=
  match input with
  | none => 0
  | some b => (Config.keymap b).getD 0

/-- The event by which the host passes on the input of one cycle (R324). -/
def inputEvent (input : Option Byte) : HostEvent := .setKey (keyOfInput input)

/-- SetKey (R324). -/
def State.setKey (s : State) (k : Nibble) : State := { s with key := k }

/-- A raw byte for the FX0A that waits with register x, already mapped (R284): a key is stored, PC advances and the
machine runs again, in one transition; an unmapped byte changes nothing. KEY is not written (D17, log entry 14). -/
def State.offerKey (s : State) (x : Nibble) (mapped : Option Nibble) : State :=
  match mapped with
  | some k => { (s.setReg x (k.setWidth 8)).advance with status := .running }
  | none => s

/-- Where a program is loaded, and where it is entered (R17, R351). -/
def loadBase : Nat := 0x200

/-- No Load is allowed any more (R320). -/
def State.closeLoad (s : State) : State := { s with loadable := false }

/-- Load (R353): the bytes copied to 0x200 onward; too many of them fail, and there is no run. -/
def State.load (s : State) (bytes : List Byte) : Result :=
  if programFits bytes then .next (s.setMem (s.mem.writeAll loadBase bytes)).closeLoad
  else .refused (.loadTooLarge bytes.length)

/-- What the host reports of a fault: the offset of the faulting instruction from the load base (R306, C5); none
where the PC lies below it, which the spec leaves to the host. -/
def Fault.reportOffset (f : Fault) : Option Nat :=
  let pc := match f with
    | .unsupported pc _ => pc
    | .outOfRange pc _ => pc
  if loadBase ≤ pc.toNat then some (pc.toNat - loadBase) else none

/-- The event the host performs next: the oldest one listed, and a Step when none is (log entry 4). -/
def State.nextEvent (s : State) : HostEvent :=
  match s.hostEvents with
  | [] => .step
  | e :: _ => e

/-- The state with that event taken off the list. A Stop stays: after it the host performs no other event (R328, log
entry 16). -/
def State.takeEvent (s : State) : State :=
  match s.hostEvents with
  | [] => s
  | .stop :: _ => s
  | _ :: later => { s with hostEvents := later }

end Sys2Proof.Machine
end

