-- ==== Sys2Proof/Machine/Execution.lean ====
section
/-!
DEFINITION. The execution step (R120) and the host's events by status (R320, R284, R305).
-/

namespace Sys2Proof.Machine

/-- Fetch, decode, dispatch (R120): a fault of the fetch first, then of the decode, then of the execution (R307). The
first Step closes the time in which a Load is allowed (R320). -/
def executionStep (s : State) : Result :=
  attempt s.fetch fun w =>
    match decode w with
    | none => raise (.unsupported s.pc w)
    | some i => exec i s.closeLoad

/-- One event of the host while Running (R320). An event not allowed now does not happen (log entry 5). -/
def performRunning (e : HostEvent) (s : State) : Result :=
  match e with
  | .load bytes => if s.loadable then s.load bytes else .next s
  | .step => executionStep s
  | .tick => .next s.tick
  | .setKey k => .next (s.setKey k)
  | .rawByte _ => .next s
  | .stop => .next s

/-- One event of the host while Blocked(x): only a raw byte acts (R284, R361; log entry 5). -/
def performBlocked (x : Nibble) (e : HostEvent) (s : State) : Result :=
  match e with
  | .rawByte b => .next (s.offerKey x (Config.keymap b))
  | .load _ => .next s
  | .step => .next s
  | .tick => .next s
  | .setKey _ => .next s
  | .stop => .next s

/-- One event of the host. A faulted machine is final: nothing changes it, and every event finds the same fault
(R305). -/
def perform (e : HostEvent) (s : State) : Result :=
  match s.status with
  | .running => performRunning e s
  | .blocked x => performBlocked x e s
  | .faulted f => raise f

/-- The transition of the machine with its host: the next event is taken off the list and performed. -/
def hostStep (s : State) : Result := perform s.nextEvent s.takeEvent

/-- The machine a step leaves behind: after a fault the status records it and nothing else changed (R304); a refused
Load leaves no run, and the state as it was (R353). -/
def State.after (s : State) : State :=
  match hostStep s with
  | .next t => t
  | .fault f => s.recordFault f
  | .refused _ => s

/-- An instruction word placed where the next step fetches it, and the machine made to run it next: the bytes at PC and
PC+1, high byte first (R77); Running, with no other host event before the Step. It stands for the Load of a program
(R353), so no Load is allowed after it. Where PC is above 0xFFE no word can be placed, and memory stays as it was. -/
def State.placeWord (s : State) (w : Word) : State :=
  { s with
    mem := if s.pc.toNat + 1 < memorySize then s.mem.writeAll s.pc.toNat [Word.hi w, Word.lo w] else s.mem
    status := .running
    hostEvents := []
    loadable := false }

end Sys2Proof.Machine
end

