-- ==== Sys2Proof/Machine/Step.lean ====
section
/-!
DEFINITION. The step of the machine, and the host's way to place one instruction. Both only call Execution.lean.
-/

namespace Sys2Proof.Machine

/-- One transition: the host's next event is performed, a Step of the block when no other is listed (R320, R321). -/
def step (s : State) : Host.Outcome State Fault Refusal := hostStep s

/-- `s` with the instruction whose bits are `w` stored where `step` fetches its next instruction, bit 0 the least
significant bit of its one word. -/
def State.withFetchWord (s : State) (nbits w : Nat) : State := s.placeWord (BitVec.ofNat 16 (w % 2 ^ nbits))

end Sys2Proof.Machine
end

