-- ==== Sys2Proof/Safety.lean ====
section
/-!
DEFINITION. The terms claims are made in: what an instruction leaves unchanged, what it may write (the tables R31 and
R73), where it faults (R303), what a sprite draws (R253), the end of a run (R362), a safe run, and the invariant.
-/

namespace Sys2Proof.Machine

/-! ## Frames -/

/-- Every general register but those named is unchanged. -/
def keepsRegsBut (rs : List Nibble) (s t : State) : Prop := ∀ r, r ∉ rs → t.reg r = s.reg r

/-- Every byte of memory reads as before. -/
def keepsMemory (s t : State) : Prop := ∀ a, t.mem.read a = s.mem.read a

/-- Every byte of memory outside the `n` bytes from `low` on reads as before. -/
def keepsMemoryOutside (low n : Nat) (s t : State) : Prop :=
  ∀ a, a < low ∨ low + n ≤ a → t.mem.read a = s.mem.read a

/-- Everything but V, PC and memory is unchanged: I, SP, DT, ST, KEY, the status, and the model's own fields. -/
def keepsSpecials (s t : State) : Prop :=
  t.index = s.index ∧ t.sp = s.sp ∧ t.dt = s.dt ∧ t.st = s.st ∧ t.key = s.key ∧ t.status = s.status ∧
    t.draws = s.draws ∧ t.hostEvents = s.hostEvents ∧ t.loadable = s.loadable

/-! ## What an instruction may write -/

/-- V0, V1, ..., V[x]. -/
def regsUpTo (x : Nibble) : List Nibble := (List.range (regCount x)).map (BitVec.ofNat 4)

/-- The general registers an instruction writes (R31); FX0A writes V[X] only when its wait ends (R284). -/
def writtenRegs : Instr → List Nibble
  | .ldImm x _ | .addImm x _ | .ldReg x _ | .orReg x _ | .andReg x _ | .xorReg x _ | .rnd x _ | .ldVxDt x
  | .ldVxK x => [x]
  | .addReg x _ | .sub x _ | .shr x | .subn x _ | .shl x => [x, flagReg]
  | .drw _ _ _ => [flagReg]
  | .loadRegs x => regsUpTo x
  | .cls | .ret | .jp _ | .call _ | .seImm _ _ | .sneImm _ _ | .seReg _ _ | .sneReg _ _ | .ldI _ | .jpV0 _ | .skp _
  | .sknp _ | .ldDtVx _ | .ldStVx _ | .addI _ | .ldF _ | .ldB _ | .storeRegs _ => []

/-- The instructions that write VF as a flag (R32). -/
def writesFlag : Instr → Bool
  | .addReg _ _ | .sub _ _ | .shr _ | .subn _ _ | .shl _ | .drw _ _ _ => true
  | .cls | .ret | .jp _ | .call _ | .seImm _ _ | .sneImm _ _ | .seReg _ _ | .ldImm _ _ | .addImm _ _ | .ldReg _ _
  | .orReg _ _ | .andReg _ _ | .xorReg _ _ | .sneReg _ _ | .ldI _ | .jpV0 _ | .rnd _ _ | .skp _ | .sknp _ | .ldVxDt _
  | .ldVxK _ | .ldDtVx _ | .ldStVx _ | .addI _ | .ldF _ | .ldB _ | .storeRegs _ | .loadRegs _ => false

/-- The bytes an instruction may write in this state, first address and count (R73). -/
def storedRange : Instr → State → Nat × Nat
  | .cls, _ | .drw _ _ _, _ => (framebufferBase, framebufferSize)
  | .call _, s => (s.pushSlot, 2)
  | .ldB _, s => (s.indexAddr, 3)
  | .storeRegs x, s => (s.indexAddr, regCount x)
  | .ret, _ | .jp _, _ | .seImm _ _, _ | .sneImm _ _, _ | .seReg _ _, _ | .ldImm _ _, _ | .addImm _ _, _
  | .ldReg _ _, _ | .orReg _ _, _ | .andReg _ _, _ | .xorReg _ _, _ | .addReg _ _, _ | .sub _ _, _ | .shr _, _
  | .subn _ _, _ | .shl _, _ | .sneReg _ _, _ | .ldI _, _ | .jpV0 _, _ | .rnd _ _, _ | .skp _, _ | .sknp _, _
  | .ldVxDt _, _ | .ldVxK _, _ | .ldDtVx _, _ | .ldStVx _, _ | .addI _, _ | .ldF _, _ | .loadRegs _, _ => (0, 0)

/-! ## Where an instruction faults -/

/-- The address an instruction's access raises OutOfRange with in this state, where it does (R303): the first address
above 0xFFF. -/
def faultAddress : Instr → State → Option Nat
  | .ret, s => if 0xFFF < s.sp.toNat then some s.sp.toNat else if s.sp.toNat = 0xFFF then some 0x1000 else none
  | .call _, s =>
    let slot := (s.sp.toNat + 2) % 0x10000
    if 0xFFF < slot then some slot else if slot = 0xFFF then some 0x1000 else none
  | .drw _ _ n, s => if 1 ≤ n.toNat ∧ 0xFFF < s.index.toNat + n.toNat - 1 then some 0x1000 else none
  | .ldB _, s => if 0xFFF < s.index.toNat + 2 then some 0x1000 else none
  | .storeRegs x, s | .loadRegs x, s => if 0xFFF < s.index.toNat + x.toNat then some 0x1000 else none
  | .cls, _ | .jp _, _ | .seImm _ _, _ | .sneImm _ _, _ | .seReg _ _, _ | .ldImm _ _, _ | .addImm _ _, _
  | .ldReg _ _, _ | .orReg _ _, _ | .andReg _ _, _ | .xorReg _ _, _ | .addReg _ _, _ | .sub _ _, _ | .shr _, _
  | .subn _ _, _ | .shl _, _ | .sneReg _ _, _ | .ldI _, _ | .jpV0 _, _ | .rnd _ _, _ | .skp _, _ | .sknp _, _
  | .ldVxDt _, _ | .ldVxK _, _ | .ldDtVx _, _ | .ldStVx _, _ | .addI _, _ | .ldF _, _ => none

/-! ## What a sprite draws (R253) -/

/-- Bit of the sprite row `byte`, drawn from column `x0`, that falls on column `px`. -/
def rowBit (byte : Byte) (x0 px : Nat) : Bool :=
  decide (x0 ≤ px) && decide (px < x0 + 8) && byte.getLsbD (7 - (px - x0))

/-- Bit of the sprite, drawn with its origin at (x0, y0), that falls on pixel (px, py). -/
def spriteBit (sprite : List Byte) (x0 y0 px py : Nat) : Bool :=
  decide (y0 ≤ py) && rowBit ((sprite[py - y0]?).getD 0) x0 px

/-- The `n` sprite bytes at I. -/
def spriteAt (s : State) (n : Nat) : List Byte := (List.range n).map fun r => s.mem.read (s.indexAddr + r)

/-! ## The word at PC, and the end of a run (R362) -/

/-- The word memory holds at PC and PC+1, whether or not it can be fetched. -/
def State.wordAtPc (s : State) : Word := wordOfBytes (s.mem.read s.pc.toNat) (s.mem.read (s.pc.toNat + 1))

/-- The idle end: the next Step executes a jump to itself. The machine itself goes on (R362). -/
def State.idleEnd (s : State) : Bool :=
  decide (s.status = .running) && decide (s.pc.toNat < 0xFFF) && decide (decode s.wordAtPc = some (.jp (s.pc.setWidth 12)))

/-- The faulting end: the step raises a fault. -/
def State.faultingEnd (s : State) : Prop := ∃ f, step s = .fault f

/-- A run of `n` transitions without a fault or a refusal. -/
def State.safeFor : Nat → State → Prop
  | 0, _ => True
  | n + 1, s => ∃ t, step s = .next t ∧ t.safeFor n

/-- SP stays in the stack region (R71, R85, R358); nothing in the block enforces it (R86). -/
def State.stackInRegion (s : State) : Prop := 0x150 ≤ s.sp.toNat ∧ s.sp.toNat + 1 < 0x200

/-! ## The invariant -/

/-- Memory is canonical, and a blocked machine stands at the FX0A that blocked it, with no Load to come. -/
def State.Inv (s : State) : Prop :=
  s.mem.wf = true ∧
    ∀ x, s.status = .blocked x →
      s.loadable = false ∧ s.pc.toNat + 1 < memorySize ∧ decode s.wordAtPc = some (.ldVxK x)

end Sys2Proof.Machine
end

