-- ==== Sys2Proof/Certificates/Slice0/Obligations.lean ====
section
/-!
DEFINITION. The statements for the provers, from the numbered rules of spec/. A statement whose docstring names a log
entry or a decision of the spec rests on it (basis 'derived'). Where an encoding clause stands first, it says that every
word the row of R112 selects decodes to the instruction with its operand fields.
-/

open Sys2Proof Sys2Proof.Machine

/-! ## Encoding -/

/-- Every instruction's word decodes to it again, with every operand at every value (R101-R104, R112), and so do its
bytes, whatever follows them (R100). The encoder's Y = 0 for 8XY6 and 8XYE is the spec's own choice (R115, D20, log
entry 17). -/
def Obligations.DecodeOfEncode : Prop :=
  ∀ i : Instr, decode (encode i) = some i ∧ ∀ rest, decodeBytes (encodeBytes i ++ rest) = .ok (i, rest)

/-- A word that decodes is the word of its instruction, but for 8XY6 and 8XYE, whose ignored Y the encoder writes as 0
(R102, R115, log entry 17). -/
def Obligations.EncodeOfDecode : Prop :=
  ∀ (w : Word) (i : Instr), decode w = some i →
    encode i = w ∨ (((∃ x, i = .shr x) ∨ (∃ x, i = .shl x)) ∧ encode i = w &&& 0xFF0F)

/-- The decoder and the table of match and mask agree: a word that decodes selects its instruction's row, a word that
selects a row decodes to an instruction of that row, and no word selects two rows (R112; exact digits by D21, log
entry 17). -/
def Obligations.DecodeAgreesWithTable : Prop :=
  (∀ (w : Word) (i : Instr), decode w = some i → rowOf i ∈ opcodeTable ∧ (rowOf i).selects w = true) ∧
  (∀ (w : Word) (r : OpcodeRow), r ∈ opcodeTable → r.selects w = true → ∃ i, decode w = some i ∧ rowOf i = r) ∧
  (∀ (w : Word) (r r' : OpcodeRow), r ∈ opcodeTable → r' ∈ opcodeTable → r.selects w = true → r'.selects w = true →
    r = r')

/-- The Unsupported space, word for word (R110, R113; exact digits by D21, log entry 17). -/
def Obligations.UnsupportedSpace : Prop :=
  ∀ w : Word, decode w = none ↔
    (fieldOp w = 0x0 ∧ w ≠ 0x00E0 ∧ w ≠ 0x00EE) ∨
    ((fieldOp w = 0x5 ∨ fieldOp w = 0x9) ∧ fieldN w ≠ 0x0) ∨
    (fieldOp w = 0x8 ∧ fieldN w ∈ ([0x8, 0x9, 0xA, 0xB, 0xC, 0xD, 0xF] : List Nibble)) ∨
    (fieldOp w = 0xE ∧ fieldNN w ∉ ([0x9E, 0xA1] : List Byte)) ∨
    (fieldOp w = 0xF ∧ fieldNN w ∉ ([0x07, 0x0A, 0x15, 0x18, 0x1E, 0x29, 0x33, 0x55, 0x65] : List Byte))

/-- Words written out from the patterns decode to the instructions they stand for (vectors P0, DE1-DE5, and others of
95_test_vectors.md). -/
def Obligations.SampleWordsDecode : Prop :=
  decode 0x6005 = some (.ldImm 0x0 0x05) ∧ decode 0x6103 = some (.ldImm 0x1 0x03) ∧
  decode 0x8014 = some (.addReg 0x0 0x1) ∧ decode 0x00E0 = some .cls ∧ decode 0x00EE = some .ret ∧
  decode 0x8126 = some (.shr 0x1) ∧ decode 0x81FE = some (.shl 0x1) ∧ decode 0x1ABC = some (.jp 0xABC) ∧
  decode 0xD125 = some (.drw 0x1 0x2 0x5) ∧ decode 0x9120 = some (.sneReg 0x1 0x2) ∧
  decode 0xF20A = some (.ldVxK 0x2) ∧ decode 0xE5A1 = some (.sknp 0x5) ∧ decode 0xF365 = some (.loadRegs 0x3) ∧
  decode 0x0000 = none ∧ decode 0x0123 = none ∧ decode 0x00E1 = none ∧ decode 0x5121 = none ∧ decode 0x812F = none

/-! ## The execution step -/

/-- When the machine runs, the host's next event is a Step, and the bytes at PC decode to an instruction, the step is
that instruction's effect; the model adds only that the Step is taken off the host's list and that no Load is allowed
any more (R120, R320, log entries 4 and 6). -/
def Obligations.StepRunsDecodedInstruction : Prop :=
  ∀ (s : State) (i : Instr), s.status = .running → s.pc.toNat < 0xFFF → decode s.wordAtPc = some i →
    (s.hostEvents = [] → step s = exec i { s with loadable := false }) ∧
    (∀ later, s.hostEvents = .step :: later → step s = exec i { s with hostEvents := later, loadable := false })

/-- Before an instruction runs: a PC above 0xFFF and a PC of 0xFFF cannot be fetched, and a word of the Unsupported space
is a fault; each names the PC (R76, R113, R120, R302; the range check of the fetch is D2, the order D28, log entries 7
and 10). -/
def Obligations.StepFaultsBeforeExecution : Prop :=
  ∀ s : State, s.status = .running → s.nextEvent = .step →
    (0xFFF < s.pc.toNat → step s = .fault (.outOfRange s.pc s.pc.toNat)) ∧
    (s.pc.toNat = 0xFFF → step s = .fault (.outOfRange s.pc 0x1000)) ∧
    (s.pc.toNat < 0xFFF → decode s.wordAtPc = none → step s = .fault (.unsupported s.pc s.wordAtPc))

/-- An instruction faults exactly where R303 says, with OutOfRange, its own address and the first address above 0xFFF,
and it never refuses (R76, R303, R307; the fetch, stack and FX33 cases are D2, log entry 7). -/
def Obligations.ExecFaultsExactly : Prop :=
  ∀ (i : Instr) (s : State),
    (∀ f, exec i s = .fault f ↔ ∃ a, faultAddress i s = some a ∧ f = .outOfRange s.pc a) ∧
    (∀ r, exec i s ≠ .refused r)

/-- A fault is precise: the machine it leaves differs in its status alone, which records the fault; the record of a
running machine's fault names its PC, and an address above 0xFFF (R301, R304; D3, log entry 7). No other claim may read
a faulted machine (R304). -/
def Obligations.FaultIsPrecise : Prop :=
  ∀ (s : State) (f : Fault), step s = .fault f →
    s.after = { s with status := .faulted f } ∧
    (s.status = .running → (∃ w, f = .unsupported s.pc w) ∨ (∃ a, 0xFFF < a ∧ f = .outOfRange s.pc a))

/-- A faulted machine takes no Step, no event of the host changes it, and its fault is never cleared (R305). That every
event, Stop too, and every later step answers the same fault, and `State.after`, are the model's choice (log entry 7). -/
def Obligations.FaultedIsFinal : Prop :=
  ∀ (s : State) (f : Fault), s.status = .faulted f →
    (∀ e, perform e s = .fault f) ∧ step s = .fault f ∧ s.after = s

/-! ## Arithmetic and logic -/

/-- 6XNN (R180). -/
def Obligations.LoadImmediate : Prop :=
  (∀ w : Word, w &&& 0xF000 = 0x6000 → decode w = some (.ldImm (fieldX w) (fieldNN w))) ∧
  ∀ (x : Nibble) (nn : Byte) (s : State), ∃ t, exec (.ldImm x nn) s = .next t ∧
    t.reg x = nn ∧ t.pc = s.pc + 2 ∧ keepsRegsBut [x] s t ∧ keepsSpecials s t ∧ keepsMemory s t

/-- 7XNN (R181): 8-bit wraparound, and VF as a flag unaffected. -/
def Obligations.AddImmediate : Prop :=
  (∀ w : Word, w &&& 0xF000 = 0x7000 → decode w = some (.addImm (fieldX w) (fieldNN w))) ∧
  ∀ (x : Nibble) (nn : Byte) (s : State), ∃ t, exec (.addImm x nn) s = .next t ∧
    (t.reg x).toNat = ((s.reg x).toNat + nn.toNat) % 256 ∧ (x ≠ 0xF → t.reg 0xF = s.reg 0xF) ∧ t.pc = s.pc + 2 ∧
    keepsRegsBut [x] s t ∧ keepsSpecials s t ∧ keepsMemory s t

/-- 8XY0 (R182). -/
def Obligations.CopyRegister : Prop :=
  (∀ w : Word, w &&& 0xF00F = 0x8000 → decode w = some (.ldReg (fieldX w) (fieldY w))) ∧
  ∀ (x y : Nibble) (s : State), ∃ t, exec (.ldReg x y) s = .next t ∧
    t.reg x = s.reg y ∧ t.pc = s.pc + 2 ∧ keepsRegsBut [x] s t ∧ keepsSpecials s t ∧ keepsMemory s t

/-- 8XY1, 8XY2, 8XY3, bit by bit (R183-R185); VF is not reset, which is D13 (log entry 13). -/
def Obligations.BitwiseOperations : Prop :=
  (∀ w : Word, w &&& 0xF00F = 0x8001 → decode w = some (.orReg (fieldX w) (fieldY w))) ∧
  (∀ w : Word, w &&& 0xF00F = 0x8002 → decode w = some (.andReg (fieldX w) (fieldY w))) ∧
  (∀ w : Word, w &&& 0xF00F = 0x8003 → decode w = some (.xorReg (fieldX w) (fieldY w))) ∧
  ∀ (x y : Nibble) (s : State),
    (∃ t, exec (.orReg x y) s = .next t ∧
      (∀ k < 8, (t.reg x).getLsbD k = ((s.reg x).getLsbD k || (s.reg y).getLsbD k)) ∧ t.pc = s.pc + 2 ∧
      keepsRegsBut [x] s t ∧ keepsSpecials s t ∧ keepsMemory s t) ∧
    (∃ t, exec (.andReg x y) s = .next t ∧
      (∀ k < 8, (t.reg x).getLsbD k = ((s.reg x).getLsbD k && (s.reg y).getLsbD k)) ∧ t.pc = s.pc + 2 ∧
      keepsRegsBut [x] s t ∧ keepsSpecials s t ∧ keepsMemory s t) ∧
    (∃ t, exec (.xorReg x y) s = .next t ∧
      (∀ k < 8, (t.reg x).getLsbD k = ((s.reg x).getLsbD k ^^ (s.reg y).getLsbD k)) ∧ t.pc = s.pc + 2 ∧
      keepsRegsBut [x] s t ∧ keepsSpecials s t ∧ keepsMemory s t)

/-- 8XY4 (R186): the sum modulo 256, VF the carry, and the carry in VF where X is F. -/
def Obligations.AddWithCarryOut : Prop :=
  (∀ w : Word, w &&& 0xF00F = 0x8004 → decode w = some (.addReg (fieldX w) (fieldY w))) ∧
  ∀ (x y : Nibble) (s : State), ∃ t, exec (.addReg x y) s = .next t ∧
    (x ≠ 0xF → (t.reg x).toNat = ((s.reg x).toNat + (s.reg y).toNat) % 256) ∧
    (t.reg 0xF).toNat = (if 255 < (s.reg x).toNat + (s.reg y).toNat then 1 else 0) ∧ t.pc = s.pc + 2 ∧
    keepsRegsBut [x, 0xF] s t ∧ keepsSpecials s t ∧ keepsMemory s t

/-- 8XY5 and 8XY7 (R187, R189): the difference modulo 256, VF 1 exactly when the minuend is strictly greater, and the
flag in VF where X is F. -/
def Obligations.SubtractStrictFlag : Prop :=
  (∀ w : Word, w &&& 0xF00F = 0x8005 → decode w = some (.sub (fieldX w) (fieldY w))) ∧
  (∀ w : Word, w &&& 0xF00F = 0x8007 → decode w = some (.subn (fieldX w) (fieldY w))) ∧
  ∀ (x y : Nibble) (s : State),
    (∃ t, exec (.sub x y) s = .next t ∧
      (x ≠ 0xF → ((t.reg x).toNat : Int) = (((s.reg x).toNat : Int) - (s.reg y).toNat) % 256) ∧
      (t.reg 0xF).toNat = (if (s.reg y).toNat < (s.reg x).toNat then 1 else 0) ∧ t.pc = s.pc + 2 ∧
      keepsRegsBut [x, 0xF] s t ∧ keepsSpecials s t ∧ keepsMemory s t) ∧
    (∃ t, exec (.subn x y) s = .next t ∧
      (x ≠ 0xF → ((t.reg x).toNat : Int) = (((s.reg y).toNat : Int) - (s.reg x).toNat) % 256) ∧
      (t.reg 0xF).toNat = (if (s.reg x).toNat < (s.reg y).toNat then 1 else 0) ∧ t.pc = s.pc + 2 ∧
      keepsRegsBut [x, 0xF] s t ∧ keepsSpecials s t ∧ keepsMemory s t)

/-- 8XY6 and 8XYE (R188, R190): half, and double modulo 256; VF the bit shifted out; any Y selects the form and V[Y] is
neither read nor written. -/
def Obligations.ShiftsIgnoreY : Prop :=
  (∀ w : Word, w &&& 0xF00F = 0x8006 → decode w = some (.shr (fieldX w))) ∧
  (∀ w : Word, w &&& 0xF00F = 0x800E → decode w = some (.shl (fieldX w))) ∧
  ∀ (x : Nibble) (s : State),
    (∃ t, exec (.shr x) s = .next t ∧
      (x ≠ 0xF → (t.reg x).toNat = (s.reg x).toNat / 2) ∧ (t.reg 0xF).toNat = (s.reg x).toNat % 2 ∧ t.pc = s.pc + 2 ∧
      keepsRegsBut [x, 0xF] s t ∧ keepsSpecials s t ∧ keepsMemory s t) ∧
    (∃ t, exec (.shl x) s = .next t ∧
      (x ≠ 0xF → (t.reg x).toNat = (s.reg x).toNat * 2 % 256) ∧ (t.reg 0xF).toNat = (s.reg x).toNat / 128 ∧
      t.pc = s.pc + 2 ∧ keepsRegsBut [x, 0xF] s t ∧ keepsSpecials s t ∧ keepsMemory s t)

/-- CXNN (R191): the next free byte under the mask, one draw used up; so it holds for every random source (D15, log
entry 3). -/
def Obligations.RandomByteUnderMask : Prop :=
  (∀ w : Word, w &&& 0xF000 = 0xC000 → decode w = some (.rnd (fieldX w) (fieldNN w))) ∧
  ∀ (x : Nibble) (nn : Byte) (s : State), ∃ t, exec (.rnd x nn) s = .next t ∧
    (∀ k < 8, (t.reg x).getLsbD k = ((Config.rand s.draws).getLsbD k && nn.getLsbD k)) ∧ t.draws = s.draws + 1 ∧
    (nn = 0 → t.reg x = 0) ∧ t.pc = s.pc + 2 ∧
    keepsRegsBut [x] s t ∧ keepsSpecials { s with draws := s.draws + 1 } t ∧ keepsMemory s t

/-! ## Control transfer -/

/-- 1NNN (R141): PC takes NNN; a jump to itself changes nothing at all; a target of 0xFFF cannot be fetched, which is the
range check D2 (log entry 7). -/
def Obligations.JumpToAddress : Prop :=
  (∀ w : Word, w &&& 0xF000 = 0x1000 → decode w = some (.jp (fieldNNN w))) ∧
  ∀ (nnn : Addr) (s : State), ∃ t, exec (.jp nnn) s = .next t ∧
    t.pc.toNat = nnn.toNat ∧ (s.pc.toNat = nnn.toNat → t = s) ∧
    (nnn = 0xFFF → t.fetch = .error (.outOfRange t.pc 0x1000)) ∧
    keepsRegsBut [] s t ∧ keepsSpecials s t ∧ keepsMemory s t

/-- BNNN (R143): PC takes V0 plus NNN, whatever X would be, and not masked to 12 bits; a target of 0xFFF or more cannot
be fetched, which is the range check D2 (log entry 7). -/
def Obligations.JumpWithOffset : Prop :=
  (∀ w : Word, w &&& 0xF000 = 0xB000 → decode w = some (.jpV0 (fieldNNN w))) ∧
  ∀ (nnn : Addr) (s : State), ∃ t, exec (.jpV0 nnn) s = .next t ∧
    t.pc.toNat = (s.reg 0x0).toNat + nnn.toNat ∧
    (0xFFF ≤ t.pc.toNat → t.fetch = .error (.outOfRange t.pc (max t.pc.toNat 0x1000))) ∧
    keepsRegsBut [] s t ∧ keepsSpecials s t ∧ keepsMemory s t

/-- 2NNN (R142): SP goes up by 2, the return address is stored there, high byte first, and PC takes NNN; a slot whose
second byte is past 0xFFF faults. The slot's place is D4, the range check D2 (log entries 7 and 8). -/
def Obligations.CallPushesReturnAddress : Prop :=
  (∀ w : Word, w &&& 0xF000 = 0x2000 → decode w = some (.call (fieldNNN w))) ∧
  ∀ (nnn : Addr) (s : State), s.pushSlot = (s.sp.toNat + 2) % 0x10000 ∧
    (s.pushSlot < 0xFFF → ∃ t, exec (.call nnn) s = .next t ∧
      (t.mem.read s.pushSlot).toNat * 256 + (t.mem.read (s.pushSlot + 1)).toNat = (s.pc.toNat + 2) % 0x10000 ∧
      t.sp = s.sp + 2 ∧ t.pc.toNat = nnn.toNat ∧ keepsRegsBut [] s t ∧ keepsSpecials { s with sp := s.sp + 2 } t ∧
      keepsMemoryOutside s.pushSlot 2 s t) ∧
    (s.pushSlot = 0xFFF → exec (.call nnn) s = .fault (.outOfRange s.pc 0x1000)) ∧
    (0xFFF < s.pushSlot → exec (.call nnn) s = .fault (.outOfRange s.pc s.pushSlot))

/-- 00EE (R140): PC takes the two bytes at SP, high byte first, and SP goes down by 2; a slot whose second byte is past
0xFFF faults. The slot's place is D4, the range check D2 (log entries 7 and 8). -/
def Obligations.ReturnPopsAddress : Prop :=
  decode 0x00EE = some .ret ∧
  ∀ s : State, s.popSlot = s.sp.toNat ∧
    (s.popSlot < 0xFFF → ∃ t, exec .ret s = .next t ∧
      t.pc.toNat = (s.mem.read s.popSlot).toNat * 256 + (s.mem.read (s.popSlot + 1)).toNat ∧
      t.sp = s.sp - 2 ∧ keepsRegsBut [] s t ∧ keepsSpecials { s with sp := s.sp - 2 } t ∧ keepsMemory s t) ∧
    (s.popSlot = 0xFFF → exec .ret s = .fault (.outOfRange s.pc 0x1000)) ∧
    (0xFFF < s.popSlot → exec .ret s = .fault (.outOfRange s.pc s.popSlot))

/-- A return undoes its call: in any state whose SP is the one the call left and whose two saved bytes still hold, 00EE
goes to the call's PC + 2 and gives SP its value before the call (R144; D4, log entry 8). -/
def Obligations.ReturnUndoesCall : Prop :=
  ∀ (nnn : Addr) (s t u : State), exec (.call nnn) s = .next t → u.sp = t.sp →
    (∀ k < 2, u.mem.read (s.pushSlot + k) = t.mem.read (s.pushSlot + k)) →
    ∃ r, exec .ret u = .next r ∧ r.pc = s.pc + 2 ∧ r.sp = s.sp

/-! ## Skips -/

/-- 3XNN and 4XNN (R160, R161). -/
def Obligations.SkipsOnImmediate : Prop :=
  (∀ w : Word, w &&& 0xF000 = 0x3000 → decode w = some (.seImm (fieldX w) (fieldNN w))) ∧
  (∀ w : Word, w &&& 0xF000 = 0x4000 → decode w = some (.sneImm (fieldX w) (fieldNN w))) ∧
  ∀ (x : Nibble) (nn : Byte) (s : State),
    (∃ t, exec (.seImm x nn) s = .next t ∧ t.pc = (if s.reg x = nn then s.pc + 4 else s.pc + 2) ∧
      keepsRegsBut [] s t ∧ keepsSpecials s t ∧ keepsMemory s t) ∧
    (∃ t, exec (.sneImm x nn) s = .next t ∧ t.pc = (if s.reg x = nn then s.pc + 2 else s.pc + 4) ∧
      keepsRegsBut [] s t ∧ keepsSpecials s t ∧ keepsMemory s t)

/-- 5XY0 and 9XY0 (R162, R163). That 5XYN and 9XYN with another N decode to none is the spec's own decision D21 (R111, log
entry 17). -/
def Obligations.SkipsOnRegisters : Prop :=
  (∀ w : Word, w &&& 0xF00F = 0x5000 → decode w = some (.seReg (fieldX w) (fieldY w))) ∧
  (∀ w : Word, (fieldOp w = 0x5 ∨ fieldOp w = 0x9) → fieldN w ≠ 0 → decode w = none) ∧
  (∀ w : Word, w &&& 0xF00F = 0x9000 → decode w = some (.sneReg (fieldX w) (fieldY w))) ∧
  ∀ (x y : Nibble) (s : State),
    (∃ t, exec (.seReg x y) s = .next t ∧ t.pc = (if s.reg x = s.reg y then s.pc + 4 else s.pc + 2) ∧
      keepsRegsBut [] s t ∧ keepsSpecials s t ∧ keepsMemory s t) ∧
    (∃ t, exec (.sneReg x y) s = .next t ∧ t.pc = (if s.reg x = s.reg y then s.pc + 2 else s.pc + 4) ∧
      keepsRegsBut [] s t ∧ keepsSpecials s t ∧ keepsMemory s t)

/-- EX9E and EXA1 (R164, R165): V[X] against KEY widened; with V[X] at 16 or more no key is equal. -/
def Obligations.SkipsOnKey : Prop :=
  (∀ w : Word, w &&& 0xF0FF = 0xE09E → decode w = some (.skp (fieldX w))) ∧
  (∀ w : Word, w &&& 0xF0FF = 0xE0A1 → decode w = some (.sknp (fieldX w))) ∧
  ∀ (x : Nibble) (s : State),
    (∃ t, exec (.skp x) s = .next t ∧ t.pc = (if (s.reg x).toNat = s.key.toNat then s.pc + 4 else s.pc + 2) ∧
      keepsRegsBut [] s t ∧ keepsSpecials s t ∧ keepsMemory s t) ∧
    (∃ t, exec (.sknp x) s = .next t ∧ t.pc = (if (s.reg x).toNat = s.key.toNat then s.pc + 2 else s.pc + 4) ∧
      keepsRegsBut [] s t ∧ keepsSpecials s t ∧ keepsMemory s t)

/-! ## Index register and memory -/

/-- ANNN (R220). -/
def Obligations.LoadIndex : Prop :=
  (∀ w : Word, w &&& 0xF000 = 0xA000 → decode w = some (.ldI (fieldNNN w))) ∧
  ∀ (nnn : Addr) (s : State), ∃ t, exec (.ldI nnn) s = .next t ∧
    t.index = nnn ∧ t.pc = s.pc + 2 ∧ keepsRegsBut [] s t ∧ keepsSpecials { s with index := nnn } t ∧ keepsMemory s t

/-- FX1E (R221): modulo 4096, and VF is not written. -/
def Obligations.AddToIndex : Prop :=
  (∀ w : Word, w &&& 0xF0FF = 0xF01E → decode w = some (.addI (fieldX w))) ∧
  ∀ (x : Nibble) (s : State), ∃ t, exec (.addI x) s = .next t ∧
    t.index.toNat = (s.index.toNat + (s.reg x).toNat) % 4096 ∧ t.pc = s.pc + 2 ∧
    keepsRegsBut [] s t ∧ keepsSpecials { s with index := t.index } t ∧ keepsMemory s t

/-- FX29 (R222): the whole of V[X] times 5, which no mask changes. -/
def Obligations.PointAtGlyph : Prop :=
  (∀ w : Word, w &&& 0xF0FF = 0xF029 → decode w = some (.ldF (fieldX w))) ∧
  ∀ (x : Nibble) (s : State), ∃ t, exec (.ldF x) s = .next t ∧
    t.index.toNat = (s.reg x).toNat * 5 ∧ t.pc = s.pc + 2 ∧
    keepsRegsBut [] s t ∧ keepsSpecials { s with index := t.index } t ∧ keepsMemory s t

/-- FX33 (R223): the three decimal digits at I, I+1, I+2, nothing else changed (I neither: D14); a fault where I+2 is
past 0xFFF (D2). Log entries 7 and 13. -/
def Obligations.StoreDecimalDigits : Prop :=
  (∀ w : Word, w &&& 0xF0FF = 0xF033 → decode w = some (.ldB (fieldX w))) ∧
  ∀ (x : Nibble) (s : State), s.indexAddr = s.index.toNat ∧
    (s.indexAddr + 2 ≤ 0xFFF → ∃ t, exec (.ldB x) s = .next t ∧
      (t.mem.read s.indexAddr).toNat = (s.reg x).toNat / 100 ∧
      (t.mem.read (s.indexAddr + 1)).toNat = (s.reg x).toNat / 10 % 10 ∧
      (t.mem.read (s.indexAddr + 2)).toNat = (s.reg x).toNat % 10 ∧ t.pc = s.pc + 2 ∧
      keepsRegsBut [] s t ∧ keepsSpecials s t ∧ keepsMemoryOutside s.indexAddr 3 s t) ∧
    (0xFFF < s.indexAddr + 2 → exec (.ldB x) s = .fault (.outOfRange s.pc 0x1000))

/-- FX55 (R224): V0..V[X] at I..I+X, nothing else changed (I neither: D14); a fault where I+X is past 0xFFF (D2). Log
entries 7 and 13. -/
def Obligations.StoreRegisters : Prop :=
  (∀ w : Word, w &&& 0xF0FF = 0xF055 → decode w = some (.storeRegs (fieldX w))) ∧
  ∀ (x : Nibble) (s : State), s.indexAddr = s.index.toNat ∧
    (s.indexAddr + x.toNat ≤ 0xFFF → ∃ t, exec (.storeRegs x) s = .next t ∧
      (∀ r : Nibble, r.toNat ≤ x.toNat → t.mem.read (s.indexAddr + r.toNat) = s.reg r) ∧ t.pc = s.pc + 2 ∧
      keepsRegsBut [] s t ∧ keepsSpecials s t ∧ keepsMemoryOutside s.indexAddr (x.toNat + 1) s t) ∧
    (0xFFF < s.indexAddr + x.toNat → exec (.storeRegs x) s = .fault (.outOfRange s.pc 0x1000))

/-- FX65 (R225): V0..V[X] from I..I+X, nothing else changed (I neither: D14); a fault where I+X is past 0xFFF (D2). Log
entries 7 and 13. -/
def Obligations.LoadRegisters : Prop :=
  (∀ w : Word, w &&& 0xF0FF = 0xF065 → decode w = some (.loadRegs (fieldX w))) ∧
  ∀ (x : Nibble) (s : State), s.indexAddr = s.index.toNat ∧
    (s.indexAddr + x.toNat ≤ 0xFFF → ∃ t, exec (.loadRegs x) s = .next t ∧
      (∀ r : Nibble, t.reg r = if r.toNat ≤ x.toNat then s.mem.read (s.indexAddr + r.toNat) else s.reg r) ∧
      t.pc = s.pc + 2 ∧ keepsSpecials s t ∧ keepsMemory s t) ∧
    (0xFFF < s.indexAddr + x.toNat → exec (.loadRegs x) s = .fault (.outOfRange s.pc 0x1000))

/-! ## Display -/

/-- 00E0 (R252): every framebuffer byte 0x00, every pixel off, every cell of the view blank, nothing else changed. The
pixel's place in its byte is D10 (log entry 11). -/
def Obligations.ClearDisplay : Prop :=
  decode 0x00E0 = some .cls ∧
  ∀ s : State, ∃ t, exec .cls s = .next t ∧
    (∀ a, 0x050 ≤ a → a ≤ 0x14F → t.mem.read a = 0) ∧
    (∀ x y, x < 64 → y < 32 → pixel t.mem x y = false) ∧ (∀ c p, c < 64 → p < 16 → viewCell t.mem c p = .blank) ∧
    t.pc = s.pc + 2 ∧ keepsRegsBut [] s t ∧ keepsSpecials s t ∧ keepsMemoryOutside 0x050 256 s t

/-- DXYN (R253): every pixel is inverted exactly where a set sprite bit falls on it, the origin wrapped and the rest
clipped; VF is 1 exactly when some pixel goes from on to off, and 0 otherwise; a fault where the sprite reaches past
0xFFF. The bit orders are D10 and D11, the reads D12, the range check D2 (log entries 7, 11, 12). -/
def Obligations.DrawSprite : Prop :=
  (∀ w : Word, w &&& 0xF000 = 0xD000 → decode w = some (.drw (fieldX w) (fieldY w) (fieldN w))) ∧
  ∀ (x y n : Nibble) (s : State), s.indexAddr = s.index.toNat ∧
    (n = 0 ∨ s.indexAddr + n.toNat - 1 ≤ 0xFFF → ∃ t, exec (.drw x y n) s = .next t ∧
      (∀ px py, px < 64 → py < 32 → pixel t.mem px py = (pixel s.mem px py ^^
        spriteBit (spriteAt s n.toNat) ((s.reg x).toNat % 64) ((s.reg y).toNat % 32) px py)) ∧
      ((t.reg 0xF = 1 ∧ ∃ px py, px < 64 ∧ py < 32 ∧ pixel s.mem px py = true ∧ pixel t.mem px py = false) ∨
        (t.reg 0xF = 0 ∧ ∀ px py, px < 64 → py < 32 → pixel s.mem px py = true → pixel t.mem px py = true)) ∧
      t.pc = s.pc + 2 ∧ keepsRegsBut [0xF] s t ∧ keepsSpecials s t ∧ keepsMemoryOutside 0x050 256 s t) ∧
    (n ≠ 0 → 0xFFF < s.indexAddr + n.toNat - 1 → exec (.drw x y n) s = .fault (.outOfRange s.pc 0x1000))

/-- Drawing the same sprite twice restores every pixel; on a blank screen the first draw reports no collision, and the
second one exactly when the sprite has a visible set bit (R254, C4, read as log entry 19 says). The sprite lies outside
the framebuffer (D12, log entry 12), and no coordinate is VF. -/
def Obligations.DrawTwiceRestores : Prop :=
  ∀ (x y n : Nibble) (s t : State), x ≠ 0xF → y ≠ 0xF →
    (s.index.toNat + n.toNat ≤ 0x050 ∨ 0x150 ≤ s.index.toNat) → exec (.drw x y n) s = .next t →
    ∃ u, exec (.drw x y n) t = .next u ∧
      (∀ px py, px < 64 → py < 32 → pixel u.mem px py = pixel s.mem px py) ∧
      ((∀ px py, px < 64 → py < 32 → pixel s.mem px py = false) →
        t.reg 0xF = 0 ∧ (u.reg 0xF = 1 ↔ ∃ px py, px < 64 ∧ py < 32 ∧
          spriteBit (spriteAt s n.toNat) ((s.reg x).toNat % 64) ((s.reg y).toNat % 32) px py = true))

/-- Writing a pixel writes that pixel of the display and no other, and no byte but the one that holds it (R251; the bit
order is D10, log entry 11). -/
def Obligations.SetPixelWritesOnePixel : Prop :=
  ∀ (m : Memory) (x y : Nat) (p : Bool), x < 64 → y < 32 →
    (∀ px py, px < 64 → py < 32 → pixel (setPixel m x y p) px py = if px = x ∧ py = y then p else pixel m px py) ∧
    (∀ a, a ≠ 0x050 + 8 * y + x / 8 → (setPixel m x y p).read a = m.read a)

/-- The display view is a function of the framebuffer bytes: 16 rows of 64 cells, the cell (c, p) the glyph of the pixels
(c, 2p) and (c, 2p+1), the upper one first, and two memories with the same framebuffer have the same view (R255); the
four glyphs by name (R256). The characters of the four names are general knowledge (log entry 15) and no part of it. -/
def Obligations.ViewIsOfFramebuffer : Prop :=
  (glyphOf false false = .blank ∧ glyphOf false true = .lowerHalf ∧ glyphOf true false = .upperHalf ∧
    glyphOf true true = .full) ∧
  (∀ (m : Memory) (c p : Nat), c < 64 → p < 16 →
    ((view m)[p]?.bind fun row => row[c]?) = some (glyphOf (pixel m c (2 * p)) (pixel m c (2 * p + 1)))) ∧
  (∀ m : Memory, (view m).length = 16 ∧ ∀ row ∈ view m, row.length = 64) ∧
  ∀ m m' : Memory, (∀ a, 0x050 ≤ a → a ≤ 0x14F → m.read a = m'.read a) → view m = view m'

/-! ## Timers and keys -/

/-- FX07, FX15 and FX18 (R280-R282). -/
def Obligations.TimerTransfers : Prop :=
  (∀ w : Word, w &&& 0xF0FF = 0xF007 → decode w = some (.ldVxDt (fieldX w))) ∧
  (∀ w : Word, w &&& 0xF0FF = 0xF015 → decode w = some (.ldDtVx (fieldX w))) ∧
  (∀ w : Word, w &&& 0xF0FF = 0xF018 → decode w = some (.ldStVx (fieldX w))) ∧
  ∀ (x : Nibble) (s : State),
    (∃ t, exec (.ldVxDt x) s = .next t ∧ t.reg x = s.dt ∧ t.pc = s.pc + 2 ∧
      keepsRegsBut [x] s t ∧ keepsSpecials s t ∧ keepsMemory s t) ∧
    (∃ t, exec (.ldDtVx x) s = .next t ∧ t.dt = s.reg x ∧ t.pc = s.pc + 2 ∧
      keepsRegsBut [] s t ∧ keepsSpecials { s with dt := s.reg x } t ∧ keepsMemory s t) ∧
    (∃ t, exec (.ldStVx x) s = .next t ∧ t.st = s.reg x ∧ t.pc = s.pc + 2 ∧
      keepsRegsBut [] s t ∧ keepsSpecials { s with st := s.reg x } t ∧ keepsMemory s t)

/-- FX0A (R283): the machine is Blocked with X, and nothing else changes, PC neither; KEY is not consulted (D17, log
entry 14). -/
def Obligations.WaitForKeyBlocks : Prop :=
  (∀ w : Word, w &&& 0xF0FF = 0xF00A → decode w = some (.ldVxK (fieldX w))) ∧
  ∀ (x : Nibble) (s : State), ∃ t, exec (.ldVxK x) s = .next t ∧
    t.status = .blocked x ∧ t.pc = s.pc ∧
    keepsRegsBut [] s t ∧ keepsSpecials { s with status := .blocked x } t ∧ keepsMemory s t

/-- A raw byte ends the wait of FX0A exactly when it is mapped: V[X] takes the key index, PC advances and the machine
runs, in one transition; an unmapped byte changes nothing but that the host has offered it. KEY is not written (R284;
D17, log entry 14). It holds for every keymap (D16, log entry 2). -/
def Obligations.RawByteEndsWait : Prop :=
  ∀ (s : State) (x : Nibble) (b : Byte) (later : List HostEvent),
    s.status = .blocked x → s.hostEvents = .rawByte b :: later →
    ∃ t, step s = .next t ∧ t.hostEvents = later ∧
      match Config.keymap b with
      | some k => (t.reg x).toNat = k.toNat ∧ t.pc = s.pc + 2 ∧ keepsRegsBut [x] s t ∧
          keepsSpecials { s with status := .running, hostEvents := later } t ∧ keepsMemory s t
      | none => t = { s with hostEvents := later }

/-- While FX0A blocks, no other work proceeds (R361): no raw byte and no other event changes DT, ST or KEY, which is D17
(R284, log entry 14). That a Step, a Tick, a SetKey, a Load and a Stop each answer the same state as a next state is the
model's choice (log entry 5). -/
def Obligations.BlockedDoesNoOtherWork : Prop :=
  ∀ (s : State) (x : Nibble), s.status = .blocked x →
    (∀ e, (∀ b, e ≠ .rawByte b) → perform e s = .next s) ∧
    (∀ e, ∃ t, perform e s = .next t ∧ t.dt = s.dt ∧ t.st = s.st ∧ t.key = s.key)

/-- No instruction reads ST: with any other value of it an instruction faults alike, and completes alike but for ST
itself (R282, R40; that ST drives no output is D24, log entry 22). -/
def Obligations.SoundTimerIsNotRead : Prop :=
  ∀ (i : Instr) (s : State) (b : Byte),
    (∀ f, exec i s = .fault f → exec i { s with st := b } = .fault f) ∧
    ∀ t, exec i s = .next t → ∃ t', exec i { s with st := b } = .next t' ∧ t' = { t with st := t'.st }

/-! ## The host's events -/

/-- Tick (R322): DT and ST go down by 1, clamped at 0, and nothing else changes; how many ticks fall between two Steps
is free (D18, log entry 4). -/
def Obligations.TickCountsDown : Prop :=
  ∀ (s : State) (later : List HostEvent), s.status = .running → s.hostEvents = .tick :: later →
    ∃ t, step s = .next t ∧ t.dt.toNat = s.dt.toNat - 1 ∧ t.st.toNat = s.st.toNat - 1 ∧ t.pc = s.pc ∧
      keepsRegsBut [] s t ∧ keepsSpecials { s with dt := t.dt, st := t.st, hostEvents := later } t ∧ keepsMemory s t

/-- SetKey (R324): KEY takes the key, and nothing else changes; the key of an input is that of the keymap, and 0 for "no
key" and for an unmapped byte (D19, log entries 2 and 4). -/
def Obligations.SetKeyWritesKey : Prop :=
  (∀ (s : State) (k : Nibble) (later : List HostEvent), s.status = .running → s.hostEvents = .setKey k :: later →
    ∃ t, step s = .next t ∧ t.key = k ∧ t.pc = s.pc ∧
      keepsRegsBut [] s t ∧ keepsSpecials { s with key := k, hostEvents := later } t ∧ keepsMemory s t) ∧
  keyOfInput none = 0 ∧
  ∀ b, match Config.keymap b with
    | some k => keyOfInput (some b) = k
    | none => keyOfInput (some b) = 0

/-- Load (R353): the program's bytes at 0x200 onward and nothing else changed, up to 3584 of them; a longer program fails
and there is no run (D26, log entry 16). -/
def Obligations.LoadCopiesProgram : Prop :=
  ∀ (s : State) (bytes : List Byte) (later : List HostEvent), s.status = .running → s.loadable = true →
    s.hostEvents = .load bytes :: later →
    (bytes.length ≤ 3584 → ∃ t, step s = .next t ∧
      (∀ j (h : j < bytes.length), t.mem.read (0x200 + j) = bytes[j]) ∧ t.pc = s.pc ∧ keepsRegsBut [] s t ∧
      keepsSpecials { s with loadable := false, hostEvents := later } t ∧
      keepsMemoryOutside 0x200 bytes.length s t) ∧
    (3584 < bytes.length → step s = .refused (.loadTooLarge bytes.length))

/-- The program is loaded once and before the first Step (R320; log entry 6): after a Step no Load is allowed, a step
never allows one again, and a Load that is not allowed does not happen. -/
def Obligations.LoadOnlyBeforeFirstStep : Prop :=
  (∀ s t, executionStep s = .next t → t.loadable = false) ∧
  (∀ s t, s.loadable = false → step s = .next t → t.loadable = false) ∧
  (∀ s bytes, s.status = .running → s.loadable = false → perform (.load bytes) s = .next s)

/-- Stop (R328, D30; log entry 16): the host calls no more, and the machine stays as it is. -/
def Obligations.StopChangesNothing : Prop :=
  ∀ (s : State) (later : List HostEvent), s.hostEvents = .stop :: later → (∀ f, s.status ≠ .faulted f) →
    step s = .next s

/-! ## Reset -/

/-- The registers after reset (R45, R350, R351): V, I, DT, ST and KEY 0, SP 0x150, PC 0x200, Running (KEY and the status
by D29, log entry 9). -/
def Obligations.ResetRegisters : Prop :=
  (∀ r, State.reset.reg r = 0) ∧ State.reset.index = 0 ∧ State.reset.pc = 0x200 ∧ State.reset.sp = 0x150 ∧
  State.reset.dt = 0 ∧ State.reset.st = 0 ∧ State.reset.key = 0 ∧ State.reset.status = .running

/-- Memory after reset with any FONT of 80 bytes (R45, R350, R11): FONT at 0x000-0x04F, 0x00 elsewhere (D8, log entry
9), in the canonical form; every other field as in the reset with the default FONT (R352, log entry 1), which is the
same machine. -/
def Obligations.ResetMemoryHoldsFont : Prop :=
  (∀ font : List Byte, font.length = 80 →
    (∀ a (h : a < font.length), (State.resetWith font).mem.read a = font[a]) ∧
    (∀ a, 80 ≤ a → (State.resetWith font).mem.read a = 0) ∧ (State.resetWith font).mem.wf = true ∧
    { State.resetWith font with mem := [] } = State.reset) ∧
  State.resetWith defaultFont = State.reset

/-! ## Whole-machine rules -/

/-- The invariant is kept: memory stays canonical (R70), and a blocked machine stands at the FX0A that blocked it (R283,
R284), with no Load to come, by the model's flag (log entry 6). No next state is Faulted, because the model answers a
fault as an outcome without a state (log entry 7). Over every event of the host (log entry 4). -/
def Obligations.StepKeepsInvariant : Prop :=
  ∀ s t : State, s.Inv → step s = .next t → t.Inv ∧ ∀ f, t.status ≠ .faulted f

/-- The machine after reset meets the invariant, with any FONT. -/
def Obligations.ResetMeetsInvariant : Prop :=
  State.reset.Inv ∧ ∀ font, (State.resetWith font).Inv

/-- Only ANNN, FX1E and FX29 write I; only 2NNN and 00EE change SP, by 2; only FX15 writes DT and only FX18 ST; no
instruction writes KEY (R34, R38-R41; I unchanged by FX33, FX55, FX65 is D14, log entry 13, SP's steps D4, log
entry 8). -/
def Obligations.SpecialRegisterWriters : Prop :=
  ∀ (i : Instr) (s t : State), exec i s = .next t →
    (t.index = s.index ∨ (∃ nnn, i = .ldI nnn) ∨ (∃ x, i = .addI x) ∨ (∃ x, i = .ldF x)) ∧
    (t.sp = s.sp ∨ (i = .ret ∧ t.sp = s.sp - 2) ∨ (∃ nnn, i = .call nnn ∧ t.sp = s.sp + 2)) ∧
    (t.dt = s.dt ∨ ∃ x, i = .ldDtVx x) ∧ (t.st = s.st ∨ ∃ x, i = .ldStVx x) ∧ t.key = s.key

/-- No instruction changes a general register that R31 does not say it writes. -/
def Obligations.GeneralRegisterWriters : Prop :=
  ∀ (i : Instr) (s t : State), exec i s = .next t → keepsRegsBut (writtenRegs i) s t

/-- No instruction changes a byte of memory outside the bytes R73 says it writes: most write none. -/
def Obligations.MemoryWriters : Prop :=
  ∀ (i : Instr) (s t : State), exec i s = .next t →
    keepsMemoryOutside (storedRange i s).1 (storedRange i s).2 s t

/-- Only FX0A changes the status, only CXNN draws, and no instruction touches the host's list or allows a Load (R42,
R191, R320; log entries 3, 4, 6). -/
def Obligations.HostSideWriters : Prop :=
  ∀ (i : Instr) (s t : State), exec i s = .next t →
    (t.status = s.status ∨ ∃ x, i = .ldVxK x ∧ t.status = .blocked x) ∧
    (t.draws = s.draws ∨ ∃ x nn, i = .rnd x nn ∧ t.draws = s.draws + 1) ∧
    t.hostEvents = s.hostEvents ∧ t.loadable = s.loadable

/-- Every flag writer leaves 0 or 1 in VF, whatever its operands; no other instruction writes VF but as a general
register, its destination (R32; C2). -/
def Obligations.FlagIsZeroOrOne : Prop :=
  ∀ (i : Instr) (s t : State), exec i s = .next t →
    (writesFlag i = true → t.reg 0xF = 0 ∨ t.reg 0xF = 1) ∧
    (writesFlag i = false → (0xF : Nibble) ∉ writtenRegs i → t.reg 0xF = s.reg 0xF)

/-- The next PC (R121): PC + 2, but for 00EE, 1NNN, 2NNN and BNNN (a target), the six skips (PC + 2 or PC + 4), and FX0A,
whose PC + 2 is written when the wait ends. The bytes 00EE takes its target from are D4 (log entry 8). -/
def Obligations.NextPc : Prop :=
  (∀ (i : Instr) (s t : State), exec i s = .next t →
    match i with
    | .ret => t.pc = wordOfBytes (s.mem.read s.sp.toNat) (s.mem.read (s.sp.toNat + 1))
    | .jp nnn | .call nnn => t.pc.toNat = nnn.toNat
    | .jpV0 nnn => t.pc.toNat = (s.reg 0x0).toNat + nnn.toNat
    | .seImm _ _ | .sneImm _ _ | .seReg _ _ | .sneReg _ _ | .skp _ | .sknp _ => t.pc = s.pc + 2 ∨ t.pc = s.pc + 4
    | .ldVxK _ => t.pc = s.pc
    | _ => t.pc = s.pc + 2) ∧
  ∀ (s : State) (x k : Nibble), (s.offerKey x (some k)).pc = s.pc + 2

/-- PC never wraps in a step that completes: its PC was 0xFFE or less, and but for 00EE, whose target is any 16-bit
value, the PC it leaves is 0x10FE or less (R36, R37 as log entry 18 reads it; D6). -/
def Obligations.CompletedStepPcRange : Prop :=
  ∀ s t : State, executionStep s = .next t →
    s.pc.toNat ≤ 0xFFE ∧ (decode s.wordAtPc ≠ some .ret → t.pc.toNat ≤ 0x10FE)

/-- A fetch sees every earlier write (R83, R357), high byte first (R77): with the memory of any state `t`, whatever
instruction or event left it, a PC inside memory fetches the two bytes `t` holds there. Named for everything that
stores: the return address of 2NNN (its slot is D4, log entry 8), the digits of FX33, the registers of FX55, the zeros
of 00E0, the drawn pixels of DXYN in either byte of the word (the bit orders are D10 and D11, the reads D12, log entries
11 and 12), and the bytes of a Load (R353). The range of the fetch is D2 (log entry 7). -/
def Obligations.FetchSeesWrites : Prop :=
  (∀ t u : State, u.mem = t.mem → u.pc.toNat + 1 < 0x1000 →
    u.fetch = .ok (wordOfBytes (t.mem.read u.pc.toNat) (t.mem.read (u.pc.toNat + 1)))) ∧
  (∀ (nnn : Addr) (s t u : State), exec (.call nnn) s = .next t → u.mem = t.mem → u.pc.toNat = s.pushSlot →
    u.fetch = .ok (s.pc + 2)) ∧
  (∀ (x : Nibble) (s t u : State), exec (.ldB x) s = .next t → u.mem = t.mem →
    (u.pc.toNat = s.indexAddr → u.fetch = .ok (wordOfBytes (s.reg x / 100) (s.reg x / 10 % 10))) ∧
    (u.pc.toNat = s.indexAddr + 1 → u.fetch = .ok (wordOfBytes (s.reg x / 10 % 10) (s.reg x % 10)))) ∧
  (∀ (x : Nibble) (s t u : State), exec (.storeRegs x) s = .next t → u.mem = t.mem →
    ∀ k : Nibble, k.toNat < x.toNat → u.pc.toNat = s.indexAddr + k.toNat →
      u.fetch = .ok (wordOfBytes (s.reg k) (s.reg (k + 1)))) ∧
  (∀ s t u : State, exec .cls s = .next t → u.mem = t.mem → 0x050 ≤ u.pc.toNat → u.pc.toNat + 1 ≤ 0x14F →
    u.fetch = .ok 0x0000) ∧
  (∀ (x y n : Nibble) (s t u : State), exec (.drw x y n) s = .next t → u.mem = t.mem →
    ∀ px py, px < 64 → py < 32 →
      let drawnPixel := pixel s.mem px py ^^
        spriteBit (spriteAt s n.toNat) ((s.reg x).toNat % 64) ((s.reg y).toNat % 32) px py
      (u.pc.toNat = pixelAddr px py → ∃ w, u.fetch = .ok w ∧ (Word.hi w).getLsbD (pixelBit px) = drawnPixel) ∧
      (u.pc.toNat + 1 = pixelAddr px py → ∃ w, u.fetch = .ok w ∧ (Word.lo w).getLsbD (pixelBit px) = drawnPixel)) ∧
  (∀ (bytes : List Byte) (s t u : State), s.load bytes = .next t → u.mem = t.mem →
    ∀ j (h : j + 1 < bytes.length), u.pc.toNat = 0x200 + j → u.fetch = .ok (wordOfBytes bytes[j] bytes[j + 1]))

/-- At the idle end the machine keeps looping: the step changes nothing but that no Load is allowed any more (R141,
R362; D27, log entries 4 and 6). -/
def Obligations.IdleEndLoops : Prop :=
  ∀ s : State, s.idleEnd = true → s.hostEvents = [] → step s = .next { s with loadable := false }
end

