-- ==== Sys2Proof/Laws/Bits.lean ====
section
/-!
SUPPORT. The fields of a word: of a word made from nibbles and bytes, and of a word that a mask of R112 selects.
-/

namespace Sys2Proof

/-! ## A word is its two bytes, a byte its two nibbles -/

/-- A field of a field is a field. -/
theorem extract_extract {n : Nat} (v : BitVec n) (i j k l : Nat) (h : l + j ≤ k) :
    (v.extractLsb' i k).extractLsb' l j = v.extractLsb' (i + l) j := by
  refine BitVec.eq_of_getLsbD_eq fun b hb => ?_
  have : l + b < k := by omega
  simp [hb, this, Nat.add_assoc]

theorem fieldOp_eq (w : Word) : fieldOp w = (Word.hi w).extractLsb' 4 4 :=
  (extract_extract w 8 4 8 4 (by omega)).symm

theorem fieldX_eq (w : Word) : fieldX w = (Word.hi w).extractLsb' 0 4 :=
  (extract_extract w 8 4 8 0 (by omega)).symm

theorem fieldY_eq (w : Word) : fieldY w = (Word.lo w).extractLsb' 4 4 :=
  (extract_extract w 0 4 8 4 (by omega)).symm

theorem fieldN_eq (w : Word) : fieldN w = (Word.lo w).extractLsb' 0 4 :=
  (extract_extract w 0 4 8 0 (by omega)).symm

theorem fieldNN_eq (w : Word) : fieldNN w = Word.lo w := rfl

/-- A word made of two bytes has them back: nothing of a fetch is lost (R77). -/
@[simp] theorem hi_wordOfBytes (hi lo : Byte) : Word.hi (wordOfBytes hi lo) = hi := BitVec.extractLsb'_append_eq_left

@[simp] theorem lo_wordOfBytes (hi lo : Byte) : Word.lo (wordOfBytes hi lo) = lo := BitVec.extractLsb'_append_eq_right

/-- The two bytes of a word make it again (R77). -/
@[simp] theorem wordOfBytes_hi_lo (w : Word) : wordOfBytes (Word.hi w) (Word.lo w) = w := by
  refine BitVec.eq_of_getLsbD_eq fun k hk => ?_
  refine (BitVec.getLsbD_append (n := 8) (m := 8)).trans ?_
  by_cases h : k < 8
  · simp [h, Word.lo]
  · have : k - 8 < 8 := by omega
    simp [h, Word.hi, this, show 8 + (k - 8) = k by omega]

/-! ## The fields of `packNibbles a b c d` (R103) -/

theorem hi_packNibbles (a b c d : Nibble) : Word.hi (packNibbles a b c d) = a ++ b := by
  have h : packNibbles a b c d = wordOfBytes (a ++ b) (c ++ d) := BitVec.append_assoc (w₁ := 8) (w₂ := 4) (w₃ := 4)
  rw [h, hi_wordOfBytes]

theorem lo_packNibbles (a b c d : Nibble) : Word.lo (packNibbles a b c d) = c ++ d := by
  have h : packNibbles a b c d = wordOfBytes (a ++ b) (c ++ d) := BitVec.append_assoc (w₁ := 8) (w₂ := 4) (w₃ := 4)
  rw [h, lo_wordOfBytes]

@[simp] theorem fieldOp_packNibbles (a b c d : Nibble) : fieldOp (packNibbles a b c d) = a := by
  rw [fieldOp_eq, hi_packNibbles]; exact BitVec.extractLsb'_append_eq_left

@[simp] theorem fieldX_packNibbles (a b c d : Nibble) : fieldX (packNibbles a b c d) = b := by
  rw [fieldX_eq, hi_packNibbles]; exact BitVec.extractLsb'_append_eq_right

@[simp] theorem fieldY_packNibbles (a b c d : Nibble) : fieldY (packNibbles a b c d) = c := by
  rw [fieldY_eq, lo_packNibbles]; exact BitVec.extractLsb'_append_eq_left

@[simp] theorem fieldN_packNibbles (a b c d : Nibble) : fieldN (packNibbles a b c d) = d := by
  rw [fieldN_eq, lo_packNibbles]; exact BitVec.extractLsb'_append_eq_right

/-! ## The fields of an opcode nibble, X and NN (R102, formats XNN and X) -/

@[simp] theorem fieldOp_xnn (a x : Nibble) (nn : Byte) : fieldOp (a ++ x ++ nn) = a := by
  rw [fieldOp_eq]; exact (congrArg _ (hi_wordOfBytes (a ++ x) nn)).trans BitVec.extractLsb'_append_eq_left

@[simp] theorem fieldX_xnn (a x : Nibble) (nn : Byte) : fieldX (a ++ x ++ nn) = x := by
  rw [fieldX_eq]; exact (congrArg _ (hi_wordOfBytes (a ++ x) nn)).trans BitVec.extractLsb'_append_eq_right

@[simp] theorem fieldNN_xnn (a x : Nibble) (nn : Byte) : fieldNN (a ++ x ++ nn) = nn := lo_wordOfBytes (a ++ x) nn

/-! ## The fields of an opcode nibble and NNN (R102, format NNN) -/

@[simp] theorem fieldOp_nnn (a : Nibble) (nnn : Addr) : fieldOp (a ++ nnn) = a := BitVec.extractLsb'_append_eq_left

@[simp] theorem fieldNNN_nnn (a : Nibble) (nnn : Addr) : fieldNNN (a ++ nnn) = nnn := BitVec.extractLsb'_append_eq_right

/-! ## A word from its fields -/

theorem getLsbD_byte (w : Word) (k : Nat) (b : Byte) (j : Nat) (h : w.extractLsb' j 8 = b) (hk : k < 8) :
    w.getLsbD (j + k) = b.getLsbD k := by
  subst h; simp [hk]

/-- Two words with the same four nibbles are the same. -/
theorem word_ext {w u : Word} (hop : fieldOp w = fieldOp u) (hx : fieldX w = fieldX u) (hy : fieldY w = fieldY u)
    (hn : fieldN w = fieldN u) : w = u := by
  refine BitVec.eq_of_getLsbD_eq fun k hk => ?_
  have bit : ∀ j i : Nat, w.extractLsb' j 4 = u.extractLsb' j 4 → i < 4 → w.getLsbD (j + i) = u.getLsbD (j + i) := by
    intro j i h hi
    have := congrArg (fun v => v.getLsbD i) h
    simpa [hi] using this
  rcases Nat.lt_or_ge k 4 with h | h
  · simpa using bit 0 k hn h
  rcases Nat.lt_or_ge k 8 with h8 | h8
  · have := bit 4 (k - 4) hy (by omega); rwa [show 4 + (k - 4) = k by omega] at this
  rcases Nat.lt_or_ge k 12 with h12 | h12
  · have := bit 8 (k - 8) hx (by omega); rwa [show 8 + (k - 8) = k by omega] at this
  · have := bit 12 (k - 12) hop (by omega); rwa [show 12 + (k - 12) = k by omega] at this

/-- Every word is its four nibbles. -/
theorem packNibbles_fields (w : Word) : packNibbles (fieldOp w) (fieldX w) (fieldY w) (fieldN w) = w :=
  word_ext (by simp) (by simp) (by simp) (by simp)

/-- NN is Y and N (R101). -/
theorem fieldNN_eq_append (w : Word) : fieldNN w = fieldY w ++ fieldN w :=
  (congrArg fieldNN (packNibbles_fields w)).symm.trans (lo_packNibbles _ _ _ _)

/-- A word with an opcode nibble, X and NN given (R102, formats XNN and X). -/
theorem eq_xnn (w : Word) : fieldOp w ++ fieldX w ++ fieldNN w = w := by
  have h : fieldOp w ++ fieldX w ++ fieldNN w = wordOfBytes (Word.hi w) (Word.lo w) := by
    have hx : Word.hi w = fieldOp w ++ fieldX w :=
      (congrArg Word.hi (packNibbles_fields w)).symm.trans (hi_packNibbles _ _ _ _)
    rw [hx]; rfl
  rw [h, wordOfBytes_hi_lo]

/-- A word with an opcode nibble and NNN given (R102, format NNN). -/
theorem eq_nnn (w : Word) : fieldOp w ++ fieldNNN w = w := by
  refine BitVec.eq_of_getLsbD_eq fun k hk => ?_
  refine (BitVec.getLsbD_append (n := 4) (m := 12)).trans ?_
  by_cases h : k < 12
  · simp [h, fieldNNN]
  · have : k - 12 < 4 := by omega
    simp [h, fieldOp, this, show 12 + (k - 12) = k by omega]

/-! ## The fields a mask of R112 fixes -/

theorem fieldOp_and (w m : Word) : fieldOp (w &&& m) = fieldOp w &&& fieldOp m := BitVec.extractLsb'_and

theorem fieldN_and (w m : Word) : fieldN (w &&& m) = fieldN w &&& fieldN m := BitVec.extractLsb'_and

theorem fieldNN_and (w m : Word) : fieldNN (w &&& m) = fieldNN w &&& fieldNN m := BitVec.extractLsb'_and

/-- Mask 0xF000 fixes the opcode nibble. -/
theorem fieldOp_of_mask {w v : Word} (h : w &&& 0xF000 = v) : fieldOp w = fieldOp v := by
  have := congrArg fieldOp h
  rwa [fieldOp_and, show fieldOp 0xF000 = BitVec.allOnes 4 from rfl, BitVec.and_allOnes] at this

/-- Mask 0xF00F fixes the opcode nibble and N. -/
theorem fields_of_mask_n {w v : Word} (h : w &&& 0xF00F = v) : fieldOp w = fieldOp v ∧ fieldN w = fieldN v := by
  constructor
  · have := congrArg fieldOp h
    rwa [fieldOp_and, show fieldOp 0xF00F = BitVec.allOnes 4 from rfl, BitVec.and_allOnes] at this
  · have := congrArg fieldN h
    rwa [fieldN_and, show fieldN 0xF00F = BitVec.allOnes 4 from rfl, BitVec.and_allOnes] at this

/-- Mask 0xF0FF fixes the opcode nibble and NN. -/
theorem fields_of_mask_nn {w v : Word} (h : w &&& 0xF0FF = v) : fieldOp w = fieldOp v ∧ fieldNN w = fieldNN v := by
  constructor
  · have := congrArg fieldOp h
    rwa [fieldOp_and, show fieldOp 0xF0FF = BitVec.allOnes 4 from rfl, BitVec.and_allOnes] at this
  · have := congrArg fieldNN h
    rwa [fieldNN_and, show fieldNN 0xF0FF = BitVec.allOnes 8 from rfl, BitVec.and_allOnes] at this

end Sys2Proof
end

