-- ==== Sys2Proof/Laws/State.lean ====
section
/-!
SUPPORT. One lemma per field per update of the state, true by rfl, and what a register reads after each update: no
proof unfolds a record update.
-/

namespace Sys2Proof.Machine.State

/-! ## `setReg`: V[r] written -/

@[simp] theorem setReg_index (s : State) (r : Nibble) (b : Byte) : (s.setReg r b).index = s.index := rfl
@[simp] theorem setReg_pc (s : State) (r : Nibble) (b : Byte) : (s.setReg r b).pc = s.pc := rfl
@[simp] theorem setReg_sp (s : State) (r : Nibble) (b : Byte) : (s.setReg r b).sp = s.sp := rfl
@[simp] theorem setReg_dt (s : State) (r : Nibble) (b : Byte) : (s.setReg r b).dt = s.dt := rfl
@[simp] theorem setReg_st (s : State) (r : Nibble) (b : Byte) : (s.setReg r b).st = s.st := rfl
@[simp] theorem setReg_key (s : State) (r : Nibble) (b : Byte) : (s.setReg r b).key = s.key := rfl
@[simp] theorem setReg_status (s : State) (r : Nibble) (b : Byte) : (s.setReg r b).status = s.status := rfl
@[simp] theorem setReg_mem (s : State) (r : Nibble) (b : Byte) : (s.setReg r b).mem = s.mem := rfl
@[simp] theorem setReg_draws (s : State) (r : Nibble) (b : Byte) : (s.setReg r b).draws = s.draws := rfl
@[simp] theorem setReg_hostEvents (s : State) (r : Nibble) (b : Byte) : (s.setReg r b).hostEvents = s.hostEvents := rfl
@[simp] theorem setReg_loadable (s : State) (r : Nibble) (b : Byte) : (s.setReg r b).loadable = s.loadable := rfl

/-! ## `setIndex`: I written -/

@[simp] theorem setIndex_v (s : State) (a : Addr) : (s.setIndex a).v = s.v := rfl
@[simp] theorem setIndex_index (s : State) (a : Addr) : (s.setIndex a).index = a := rfl
@[simp] theorem setIndex_pc (s : State) (a : Addr) : (s.setIndex a).pc = s.pc := rfl
@[simp] theorem setIndex_sp (s : State) (a : Addr) : (s.setIndex a).sp = s.sp := rfl
@[simp] theorem setIndex_dt (s : State) (a : Addr) : (s.setIndex a).dt = s.dt := rfl
@[simp] theorem setIndex_st (s : State) (a : Addr) : (s.setIndex a).st = s.st := rfl
@[simp] theorem setIndex_key (s : State) (a : Addr) : (s.setIndex a).key = s.key := rfl
@[simp] theorem setIndex_status (s : State) (a : Addr) : (s.setIndex a).status = s.status := rfl
@[simp] theorem setIndex_mem (s : State) (a : Addr) : (s.setIndex a).mem = s.mem := rfl
@[simp] theorem setIndex_draws (s : State) (a : Addr) : (s.setIndex a).draws = s.draws := rfl
@[simp] theorem setIndex_hostEvents (s : State) (a : Addr) : (s.setIndex a).hostEvents = s.hostEvents := rfl
@[simp] theorem setIndex_loadable (s : State) (a : Addr) : (s.setIndex a).loadable = s.loadable := rfl
@[simp] theorem setIndex_reg (s : State) (a : Addr) (q : Nibble) : (s.setIndex a).reg q = s.reg q := rfl

/-! ## `setMem`: memory replaced -/

@[simp] theorem setMem_v (s : State) (m : Memory) : (s.setMem m).v = s.v := rfl
@[simp] theorem setMem_index (s : State) (m : Memory) : (s.setMem m).index = s.index := rfl
@[simp] theorem setMem_pc (s : State) (m : Memory) : (s.setMem m).pc = s.pc := rfl
@[simp] theorem setMem_sp (s : State) (m : Memory) : (s.setMem m).sp = s.sp := rfl
@[simp] theorem setMem_dt (s : State) (m : Memory) : (s.setMem m).dt = s.dt := rfl
@[simp] theorem setMem_st (s : State) (m : Memory) : (s.setMem m).st = s.st := rfl
@[simp] theorem setMem_key (s : State) (m : Memory) : (s.setMem m).key = s.key := rfl
@[simp] theorem setMem_status (s : State) (m : Memory) : (s.setMem m).status = s.status := rfl
@[simp] theorem setMem_mem (s : State) (m : Memory) : (s.setMem m).mem = m := rfl
@[simp] theorem setMem_draws (s : State) (m : Memory) : (s.setMem m).draws = s.draws := rfl
@[simp] theorem setMem_hostEvents (s : State) (m : Memory) : (s.setMem m).hostEvents = s.hostEvents := rfl
@[simp] theorem setMem_loadable (s : State) (m : Memory) : (s.setMem m).loadable = s.loadable := rfl
@[simp] theorem setMem_reg (s : State) (m : Memory) (q : Nibble) : (s.setMem m).reg q = s.reg q := rfl

/-! ## `advance`: the default next PC -/

@[simp] theorem advance_v (s : State) : s.advance.v = s.v := rfl
@[simp] theorem advance_index (s : State) : s.advance.index = s.index := rfl
@[simp] theorem advance_pc (s : State) : s.advance.pc = s.pc + 2 := rfl
@[simp] theorem advance_sp (s : State) : s.advance.sp = s.sp := rfl
@[simp] theorem advance_dt (s : State) : s.advance.dt = s.dt := rfl
@[simp] theorem advance_st (s : State) : s.advance.st = s.st := rfl
@[simp] theorem advance_key (s : State) : s.advance.key = s.key := rfl
@[simp] theorem advance_status (s : State) : s.advance.status = s.status := rfl
@[simp] theorem advance_mem (s : State) : s.advance.mem = s.mem := rfl
@[simp] theorem advance_draws (s : State) : s.advance.draws = s.draws := rfl
@[simp] theorem advance_hostEvents (s : State) : s.advance.hostEvents = s.hostEvents := rfl
@[simp] theorem advance_loadable (s : State) : s.advance.loadable = s.loadable := rfl
@[simp] theorem advance_reg (s : State) (q : Nibble) : s.advance.reg q = s.reg q := rfl

/-! ## `skipIf`: a skip -/

@[simp] theorem skipIf_v (s : State) (c : Bool) : (s.skipIf c).v = s.v := rfl
@[simp] theorem skipIf_index (s : State) (c : Bool) : (s.skipIf c).index = s.index := rfl
@[simp] theorem skipIf_pc (s : State) (c : Bool) : (s.skipIf c).pc = s.pc + if c then 4 else 2 := rfl
@[simp] theorem skipIf_sp (s : State) (c : Bool) : (s.skipIf c).sp = s.sp := rfl
@[simp] theorem skipIf_dt (s : State) (c : Bool) : (s.skipIf c).dt = s.dt := rfl
@[simp] theorem skipIf_st (s : State) (c : Bool) : (s.skipIf c).st = s.st := rfl
@[simp] theorem skipIf_key (s : State) (c : Bool) : (s.skipIf c).key = s.key := rfl
@[simp] theorem skipIf_status (s : State) (c : Bool) : (s.skipIf c).status = s.status := rfl
@[simp] theorem skipIf_mem (s : State) (c : Bool) : (s.skipIf c).mem = s.mem := rfl
@[simp] theorem skipIf_draws (s : State) (c : Bool) : (s.skipIf c).draws = s.draws := rfl
@[simp] theorem skipIf_hostEvents (s : State) (c : Bool) : (s.skipIf c).hostEvents = s.hostEvents := rfl
@[simp] theorem skipIf_loadable (s : State) (c : Bool) : (s.skipIf c).loadable = s.loadable := rfl
@[simp] theorem skipIf_reg (s : State) (c : Bool) (q : Nibble) : (s.skipIf c).reg q = s.reg q := rfl

/-! ## `jump`: a target -/

@[simp] theorem jump_v (s : State) (target : Word) : (s.jump target).v = s.v := rfl
@[simp] theorem jump_index (s : State) (target : Word) : (s.jump target).index = s.index := rfl
@[simp] theorem jump_pc (s : State) (target : Word) : (s.jump target).pc = target := rfl
@[simp] theorem jump_sp (s : State) (target : Word) : (s.jump target).sp = s.sp := rfl
@[simp] theorem jump_dt (s : State) (target : Word) : (s.jump target).dt = s.dt := rfl
@[simp] theorem jump_st (s : State) (target : Word) : (s.jump target).st = s.st := rfl
@[simp] theorem jump_key (s : State) (target : Word) : (s.jump target).key = s.key := rfl
@[simp] theorem jump_status (s : State) (target : Word) : (s.jump target).status = s.status := rfl
@[simp] theorem jump_mem (s : State) (target : Word) : (s.jump target).mem = s.mem := rfl
@[simp] theorem jump_draws (s : State) (target : Word) : (s.jump target).draws = s.draws := rfl
@[simp] theorem jump_hostEvents (s : State) (target : Word) : (s.jump target).hostEvents = s.hostEvents := rfl
@[simp] theorem jump_loadable (s : State) (target : Word) : (s.jump target).loadable = s.loadable := rfl
@[simp] theorem jump_reg (s : State) (target : Word) (q : Nibble) : (s.jump target).reg q = s.reg q := rfl

/-! ## `recordFault`: a recorded fault -/

@[simp] theorem recordFault_v (s : State) (f : Fault) : (s.recordFault f).v = s.v := rfl
@[simp] theorem recordFault_index (s : State) (f : Fault) : (s.recordFault f).index = s.index := rfl
@[simp] theorem recordFault_pc (s : State) (f : Fault) : (s.recordFault f).pc = s.pc := rfl
@[simp] theorem recordFault_sp (s : State) (f : Fault) : (s.recordFault f).sp = s.sp := rfl
@[simp] theorem recordFault_dt (s : State) (f : Fault) : (s.recordFault f).dt = s.dt := rfl
@[simp] theorem recordFault_st (s : State) (f : Fault) : (s.recordFault f).st = s.st := rfl
@[simp] theorem recordFault_key (s : State) (f : Fault) : (s.recordFault f).key = s.key := rfl
@[simp] theorem recordFault_status (s : State) (f : Fault) : (s.recordFault f).status = .faulted f := rfl
@[simp] theorem recordFault_mem (s : State) (f : Fault) : (s.recordFault f).mem = s.mem := rfl
@[simp] theorem recordFault_draws (s : State) (f : Fault) : (s.recordFault f).draws = s.draws := rfl
@[simp] theorem recordFault_hostEvents (s : State) (f : Fault) : (s.recordFault f).hostEvents = s.hostEvents := rfl
@[simp] theorem recordFault_loadable (s : State) (f : Fault) : (s.recordFault f).loadable = s.loadable := rfl
@[simp] theorem recordFault_reg (s : State) (f : Fault) (q : Nibble) : (s.recordFault f).reg q = s.reg q := rfl

/-! ## `countDraw`: a draw used up -/

@[simp] theorem countDraw_v (s : State) : s.countDraw.v = s.v := rfl
@[simp] theorem countDraw_index (s : State) : s.countDraw.index = s.index := rfl
@[simp] theorem countDraw_pc (s : State) : s.countDraw.pc = s.pc := rfl
@[simp] theorem countDraw_sp (s : State) : s.countDraw.sp = s.sp := rfl
@[simp] theorem countDraw_dt (s : State) : s.countDraw.dt = s.dt := rfl
@[simp] theorem countDraw_st (s : State) : s.countDraw.st = s.st := rfl
@[simp] theorem countDraw_key (s : State) : s.countDraw.key = s.key := rfl
@[simp] theorem countDraw_status (s : State) : s.countDraw.status = s.status := rfl
@[simp] theorem countDraw_mem (s : State) : s.countDraw.mem = s.mem := rfl
@[simp] theorem countDraw_draws (s : State) : s.countDraw.draws = s.draws + 1 := rfl
@[simp] theorem countDraw_hostEvents (s : State) : s.countDraw.hostEvents = s.hostEvents := rfl
@[simp] theorem countDraw_loadable (s : State) : s.countDraw.loadable = s.loadable := rfl
@[simp] theorem countDraw_reg (s : State) (q : Nibble) : s.countDraw.reg q = s.reg q := rfl

/-! ## `tick`: the timers counting down -/

@[simp] theorem tick_v (s : State) : s.tick.v = s.v := rfl
@[simp] theorem tick_index (s : State) : s.tick.index = s.index := rfl
@[simp] theorem tick_pc (s : State) : s.tick.pc = s.pc := rfl
@[simp] theorem tick_sp (s : State) : s.tick.sp = s.sp := rfl
@[simp] theorem tick_dt (s : State) : s.tick.dt = countDown s.dt := rfl
@[simp] theorem tick_st (s : State) : s.tick.st = countDown s.st := rfl
@[simp] theorem tick_key (s : State) : s.tick.key = s.key := rfl
@[simp] theorem tick_status (s : State) : s.tick.status = s.status := rfl
@[simp] theorem tick_mem (s : State) : s.tick.mem = s.mem := rfl
@[simp] theorem tick_draws (s : State) : s.tick.draws = s.draws := rfl
@[simp] theorem tick_hostEvents (s : State) : s.tick.hostEvents = s.hostEvents := rfl
@[simp] theorem tick_loadable (s : State) : s.tick.loadable = s.loadable := rfl
@[simp] theorem tick_reg (s : State) (q : Nibble) : s.tick.reg q = s.reg q := rfl

/-! ## `setKey`: KEY written -/

@[simp] theorem setKey_v (s : State) (k : Nibble) : (s.setKey k).v = s.v := rfl
@[simp] theorem setKey_index (s : State) (k : Nibble) : (s.setKey k).index = s.index := rfl
@[simp] theorem setKey_pc (s : State) (k : Nibble) : (s.setKey k).pc = s.pc := rfl
@[simp] theorem setKey_sp (s : State) (k : Nibble) : (s.setKey k).sp = s.sp := rfl
@[simp] theorem setKey_dt (s : State) (k : Nibble) : (s.setKey k).dt = s.dt := rfl
@[simp] theorem setKey_st (s : State) (k : Nibble) : (s.setKey k).st = s.st := rfl
@[simp] theorem setKey_key (s : State) (k : Nibble) : (s.setKey k).key = k := rfl
@[simp] theorem setKey_status (s : State) (k : Nibble) : (s.setKey k).status = s.status := rfl
@[simp] theorem setKey_mem (s : State) (k : Nibble) : (s.setKey k).mem = s.mem := rfl
@[simp] theorem setKey_draws (s : State) (k : Nibble) : (s.setKey k).draws = s.draws := rfl
@[simp] theorem setKey_hostEvents (s : State) (k : Nibble) : (s.setKey k).hostEvents = s.hostEvents := rfl
@[simp] theorem setKey_loadable (s : State) (k : Nibble) : (s.setKey k).loadable = s.loadable := rfl
@[simp] theorem setKey_reg (s : State) (k : Nibble) (q : Nibble) : (s.setKey k).reg q = s.reg q := rfl

/-! ## `closeLoad`: no Load any more -/

@[simp] theorem closeLoad_v (s : State) : s.closeLoad.v = s.v := rfl
@[simp] theorem closeLoad_index (s : State) : s.closeLoad.index = s.index := rfl
@[simp] theorem closeLoad_pc (s : State) : s.closeLoad.pc = s.pc := rfl
@[simp] theorem closeLoad_sp (s : State) : s.closeLoad.sp = s.sp := rfl
@[simp] theorem closeLoad_dt (s : State) : s.closeLoad.dt = s.dt := rfl
@[simp] theorem closeLoad_st (s : State) : s.closeLoad.st = s.st := rfl
@[simp] theorem closeLoad_key (s : State) : s.closeLoad.key = s.key := rfl
@[simp] theorem closeLoad_status (s : State) : s.closeLoad.status = s.status := rfl
@[simp] theorem closeLoad_mem (s : State) : s.closeLoad.mem = s.mem := rfl
@[simp] theorem closeLoad_draws (s : State) : s.closeLoad.draws = s.draws := rfl
@[simp] theorem closeLoad_hostEvents (s : State) : s.closeLoad.hostEvents = s.hostEvents := rfl
@[simp] theorem closeLoad_loadable (s : State) : s.closeLoad.loadable = false := rfl
@[simp] theorem closeLoad_reg (s : State) (q : Nibble) : s.closeLoad.reg q = s.reg q := rfl

/-! ## `setFlag`: VF written -/

@[simp] theorem setFlag_index (s : State) (c : Bool) : (s.setFlag c).index = s.index := rfl
@[simp] theorem setFlag_pc (s : State) (c : Bool) : (s.setFlag c).pc = s.pc := rfl
@[simp] theorem setFlag_sp (s : State) (c : Bool) : (s.setFlag c).sp = s.sp := rfl
@[simp] theorem setFlag_dt (s : State) (c : Bool) : (s.setFlag c).dt = s.dt := rfl
@[simp] theorem setFlag_st (s : State) (c : Bool) : (s.setFlag c).st = s.st := rfl
@[simp] theorem setFlag_key (s : State) (c : Bool) : (s.setFlag c).key = s.key := rfl
@[simp] theorem setFlag_status (s : State) (c : Bool) : (s.setFlag c).status = s.status := rfl
@[simp] theorem setFlag_mem (s : State) (c : Bool) : (s.setFlag c).mem = s.mem := rfl
@[simp] theorem setFlag_draws (s : State) (c : Bool) : (s.setFlag c).draws = s.draws := rfl
@[simp] theorem setFlag_hostEvents (s : State) (c : Bool) : (s.setFlag c).hostEvents = s.hostEvents := rfl
@[simp] theorem setFlag_loadable (s : State) (c : Bool) : (s.setFlag c).loadable = s.loadable := rfl

/-! ## `setResultAndFlag`: a result and a flag written -/

@[simp] theorem setResultAndFlag_index (s : State) (x : Nibble) (result : Byte) (c : Bool) : (s.setResultAndFlag x result c).index = s.index := rfl
@[simp] theorem setResultAndFlag_pc (s : State) (x : Nibble) (result : Byte) (c : Bool) : (s.setResultAndFlag x result c).pc = s.pc := rfl
@[simp] theorem setResultAndFlag_sp (s : State) (x : Nibble) (result : Byte) (c : Bool) : (s.setResultAndFlag x result c).sp = s.sp := rfl
@[simp] theorem setResultAndFlag_dt (s : State) (x : Nibble) (result : Byte) (c : Bool) : (s.setResultAndFlag x result c).dt = s.dt := rfl
@[simp] theorem setResultAndFlag_st (s : State) (x : Nibble) (result : Byte) (c : Bool) : (s.setResultAndFlag x result c).st = s.st := rfl
@[simp] theorem setResultAndFlag_key (s : State) (x : Nibble) (result : Byte) (c : Bool) : (s.setResultAndFlag x result c).key = s.key := rfl
@[simp] theorem setResultAndFlag_status (s : State) (x : Nibble) (result : Byte) (c : Bool) : (s.setResultAndFlag x result c).status = s.status := rfl
@[simp] theorem setResultAndFlag_mem (s : State) (x : Nibble) (result : Byte) (c : Bool) : (s.setResultAndFlag x result c).mem = s.mem := rfl
@[simp] theorem setResultAndFlag_draws (s : State) (x : Nibble) (result : Byte) (c : Bool) : (s.setResultAndFlag x result c).draws = s.draws := rfl
@[simp] theorem setResultAndFlag_hostEvents (s : State) (x : Nibble) (result : Byte) (c : Bool) : (s.setResultAndFlag x result c).hostEvents = s.hostEvents := rfl
@[simp] theorem setResultAndFlag_loadable (s : State) (x : Nibble) (result : Byte) (c : Bool) : (s.setResultAndFlag x result c).loadable = s.loadable := rfl

/-! ## Registers (R30) -/

/-- A register read after a register is written (R14). -/
@[simp] theorem setReg_reg (s : State) (r : Nibble) (b : Byte) (q : Nibble) :
    (s.setReg r b).reg q = if q = r then b else s.reg q := by
  by_cases h : q = r
  · subst h; simp [setReg, reg]
  · have : r.toNat ≠ q.toNat := fun e => h (BitVec.eq_of_toNat_eq e.symm)
    simp [setReg, reg, this, h]

/-- A register read after VF takes a flag (R32). -/
@[simp] theorem setFlag_reg (s : State) (c : Bool) (q : Nibble) :
    (s.setFlag c).reg q = if q = flagReg then flagByte c else s.reg q := setReg_reg _ _ _ _

/-- A register read after a result and a flag are written: the flag wins in VF (R15, C2). -/
@[simp] theorem setResultAndFlag_reg (s : State) (x : Nibble) (result : Byte) (c : Bool) (q : Nibble) :
    (s.setResultAndFlag x result c).reg q =
      if q = flagReg then flagByte c else if q = x then result else s.reg q := by
  simp [setResultAndFlag]

/-- Equal register files are equal registers: for a state written out as an update of another field. -/
theorem reg_of_v {s t : State} (h : t.v = s.v) (q : Nibble) : t.reg q = s.reg q := by rw [reg, reg]; simp [h]

/-- Equal registers are equal register files. -/
theorem v_ext {s t : State} (h : ∀ q, s.reg q = t.reg q) : s.v = t.v := by
  apply Vector.ext
  intro i hi
  have := h (BitVec.ofNat 4 i)
  simpa [reg, Nat.mod_eq_of_lt hi] using this

/-! ## `setRegsFrom`: consecutive registers written (R225) -/

/-- Everything but the registers is unchanged. -/
theorem setRegsFrom_eq (s : State) (k : Nat) (bs : List Byte) :
    s.setRegsFrom k bs = { s with v := (s.setRegsFrom k bs).v } := by
  induction bs generalizing s k with
  | nil => rfl
  | cons b bs ih => rw [setRegsFrom, ih]; rfl

@[simp] theorem setRegsFrom_index (s : State) (k : Nat) (bs : List Byte) : (s.setRegsFrom k bs).index = s.index := by rw [setRegsFrom_eq]
@[simp] theorem setRegsFrom_pc (s : State) (k : Nat) (bs : List Byte) : (s.setRegsFrom k bs).pc = s.pc := by rw [setRegsFrom_eq]
@[simp] theorem setRegsFrom_sp (s : State) (k : Nat) (bs : List Byte) : (s.setRegsFrom k bs).sp = s.sp := by rw [setRegsFrom_eq]
@[simp] theorem setRegsFrom_dt (s : State) (k : Nat) (bs : List Byte) : (s.setRegsFrom k bs).dt = s.dt := by rw [setRegsFrom_eq]
@[simp] theorem setRegsFrom_st (s : State) (k : Nat) (bs : List Byte) : (s.setRegsFrom k bs).st = s.st := by rw [setRegsFrom_eq]
@[simp] theorem setRegsFrom_key (s : State) (k : Nat) (bs : List Byte) : (s.setRegsFrom k bs).key = s.key := by rw [setRegsFrom_eq]
@[simp] theorem setRegsFrom_status (s : State) (k : Nat) (bs : List Byte) : (s.setRegsFrom k bs).status = s.status := by rw [setRegsFrom_eq]
@[simp] theorem setRegsFrom_mem (s : State) (k : Nat) (bs : List Byte) : (s.setRegsFrom k bs).mem = s.mem := by rw [setRegsFrom_eq]
@[simp] theorem setRegsFrom_draws (s : State) (k : Nat) (bs : List Byte) : (s.setRegsFrom k bs).draws = s.draws := by rw [setRegsFrom_eq]
@[simp] theorem setRegsFrom_hostEvents (s : State) (k : Nat) (bs : List Byte) : (s.setRegsFrom k bs).hostEvents = s.hostEvents := by rw [setRegsFrom_eq]
@[simp] theorem setRegsFrom_loadable (s : State) (k : Nat) (bs : List Byte) : (s.setRegsFrom k bs).loadable = s.loadable := by rw [setRegsFrom_eq]

/-- A register read after consecutive registers are written. -/
theorem setRegsFrom_reg (s : State) (k : Nat) (bs : List Byte) (q : Nibble) (h : k + bs.length ≤ 16) :
    (s.setRegsFrom k bs).reg q =
      if k ≤ q.toNat then (bs[q.toNat - k]?).getD (s.reg q) else s.reg q := by
  induction bs generalizing s k with
  | nil => simp [setRegsFrom]
  | cons b bs ih =>
    simp only [List.length_cons] at h
    have hk : (BitVec.ofNat 4 k).toNat = k := by simp; omega
    rw [setRegsFrom, ih _ _ (by omega), setReg_reg]
    have hq : q = BitVec.ofNat 4 k ↔ q.toNat = k := by
      rw [← BitVec.toNat_inj, hk]
    rcases Nat.lt_trichotomy q.toNat k with h1 | h1 | h1
    · have : ¬ k + 1 ≤ q.toNat := by omega
      have : ¬ k ≤ q.toNat := by omega
      have : q.toNat ≠ k := by omega
      simp [*]
    · have : ¬ k + 1 ≤ q.toNat := by omega
      simp [*]
    · have h2 : q.toNat - k = q.toNat - (k + 1) + 1 := by omega
      have h3 : k + 1 ≤ q.toNat := by omega
      have h4 : k ≤ q.toNat := by omega
      have h5 : q.toNat ≠ k := by omega
      simp [h2, h3, h4, hq, h5]

/-- The bytes of V0, V1, ... (R224). -/
@[simp] theorem regsBelow_length (s : State) (n : Nat) : (s.regsBelow n).length = n := by simp [regsBelow]

theorem regsBelow_getElem? (s : State) (n k : Nat) :
    (s.regsBelow n)[k]? = if k < n then some (s.reg (BitVec.ofNat 4 k)) else none := by
  by_cases h : k < n <;> simp [regsBelow, h]

/-! ## The event list (log entry 4) -/

@[simp] theorem takeEvent_v (s : State) : s.takeEvent.v = s.v := by
  unfold takeEvent; split <;> rfl
@[simp] theorem takeEvent_index (s : State) : s.takeEvent.index = s.index := by
  unfold takeEvent; split <;> rfl
@[simp] theorem takeEvent_pc (s : State) : s.takeEvent.pc = s.pc := by
  unfold takeEvent; split <;> rfl
@[simp] theorem takeEvent_sp (s : State) : s.takeEvent.sp = s.sp := by
  unfold takeEvent; split <;> rfl
@[simp] theorem takeEvent_dt (s : State) : s.takeEvent.dt = s.dt := by
  unfold takeEvent; split <;> rfl
@[simp] theorem takeEvent_st (s : State) : s.takeEvent.st = s.st := by
  unfold takeEvent; split <;> rfl
@[simp] theorem takeEvent_key (s : State) : s.takeEvent.key = s.key := by
  unfold takeEvent; split <;> rfl
@[simp] theorem takeEvent_status (s : State) : s.takeEvent.status = s.status := by
  unfold takeEvent; split <;> rfl
@[simp] theorem takeEvent_mem (s : State) : s.takeEvent.mem = s.mem := by
  unfold takeEvent; split <;> rfl
@[simp] theorem takeEvent_draws (s : State) : s.takeEvent.draws = s.draws := by
  unfold takeEvent; split <;> rfl
@[simp] theorem takeEvent_loadable (s : State) : s.takeEvent.loadable = s.loadable := by
  unfold takeEvent; split <;> rfl
@[simp] theorem takeEvent_reg (s : State) (q : Nibble) : s.takeEvent.reg q = s.reg q := by simp [reg]

end Sys2Proof.Machine.State
end

