-- ==== Sys2Proof/Laws/Memory.lean ====
section
/-!
SUPPORT. Memory: a read after a write, in every list of cells; every operation keeps the canonical form; in that form
equal bytes are equal lists.
-/

namespace Sys2Proof.Machine.Memory

/-! ## Reads after writes (R81) -/

@[simp] theorem read_erase (m : Memory) (a b : Nat) :
    (erase m a).read b = if b = a then unlisted b else m.read b := by
  induction m with
  | nil => simp [erase, read]
  | cons c m ih =>
    obtain ⟨k, v⟩ := c
    by_cases h : a = k
    · subst h
      by_cases hb : b = a
      · subst hb; simpa [erase] using ih
      · simp [erase, read, ih, hb]
    · by_cases hb : b = k
      · subst hb
        have : b ≠ a := fun e => h e.symm
        simp [erase, read, h, this]
      · simp [erase, read, ih, h, hb]

/-- No cell has the address. -/
def Absent (m : Memory) (a : Nat) : Prop := ∀ c ∈ m, c.1 ≠ a

theorem absent_erase (m : Memory) (a : Nat) : Absent (erase m a) a := by
  induction m with
  | nil => simp [Absent, erase]
  | cons c m ih =>
    obtain ⟨k, v⟩ := c
    by_cases h : a = k
    · simpa [erase, h] using (h ▸ ih)
    · intro c hc
      rw [erase, if_neg h] at hc
      rcases List.mem_cons.mp hc with rfl | hc
      · exact fun e => h e.symm
      · exact ih c hc

theorem read_insert {m : Memory} {a : Nat} (h : Absent m a) (v : Byte) (b : Nat) :
    (insert m a v).read b = if b = a then v else m.read b := by
  induction m with
  | nil => simp [insert, read]
  | cons c m ih =>
    obtain ⟨k, w⟩ := c
    have hk : k ≠ a := h (k, w) (by simp)
    have hm : Absent m a := fun c hc => h c (by simp [hc])
    rw [insert]
    split
    · simp [read]
    · rw [read, ih hm, read]
      by_cases hb : b = k
      · subst hb; simp [hk]
      · simp [hb]

/-- A read after a write: the byte written at its address, every other byte as before. -/
@[simp] theorem read_write (m : Memory) (a : Nat) (v : Byte) (b : Nat) :
    (write m a v).read b = if b = a then v else m.read b := by
  rw [write]
  split
  · rename_i h
    by_cases hb : b = a <;> simp [hb, h]
  · rw [read_insert (absent_erase m a)]
    by_cases hb : b = a <;> simp [hb]

/-- A read after consecutive writes. -/
theorem read_writeAll (m : Memory) (a : Nat) (bs : List Byte) (b : Nat) :
    (writeAll m a bs).read b = if a ≤ b then (bs[b - a]?).getD (m.read b) else m.read b := by
  induction bs generalizing m a with
  | nil => simp [writeAll]
  | cons v bs ih =>
    rw [writeAll, ih, read_write]
    rcases Nat.lt_trichotomy b a with h | h | h
    · have : ¬ a + 1 ≤ b := by omega
      have : ¬ a ≤ b := by omega
      have : b ≠ a := by omega
      simp [*]
    · subst h; simp
    · have h2 : b - a = b - (a + 1) + 1 := by omega
      have h3 : a + 1 ≤ b := by omega
      have h4 : a ≤ b := by omega
      have h5 : b ≠ a := by omega
      simp [h2, h3, h4, h5]

/-- Consecutive writes change no byte outside their range. -/
theorem read_writeAll_outside {m : Memory} {a : Nat} {bs : List Byte} {b : Nat} (h : b < a ∨ a + bs.length ≤ b) :
    (writeAll m a bs).read b = m.read b := by
  rw [read_writeAll]
  split
  · have : bs.length ≤ b - a := by omega
    simp [this]
  · rfl

/-- Consecutive writes put each byte in its place. -/
theorem read_writeAll_inside {m : Memory} {a : Nat} {bs : List Byte} {k : Nat} (h : k < bs.length) :
    (writeAll m a bs).read (a + k) = bs[k] := by
  rw [read_writeAll]; simp [h]

/-! ## The canonical form -/

theorem wfFrom_mono {low low' : Nat} (hl : low' ≤ low) {m : Memory} (h : wfFrom low m = true) : wfFrom low' m = true := by
  cases m with
  | nil => rfl
  | cons c m =>
    obtain ⟨b, v⟩ := c
    simp only [wfFrom, Bool.and_eq_true, decide_eq_true_eq] at h ⊢
    exact ⟨⟨⟨hl.trans h.1.1.1, h.1.1.2⟩, h.1.2⟩, h.2⟩

theorem wfFrom_erase {low : Nat} {m : Memory} (h : wfFrom low m = true) (a : Nat) : wfFrom low (erase m a) = true := by
  induction m generalizing low with
  | nil => rfl
  | cons c m ih =>
    obtain ⟨b, v⟩ := c
    simp only [wfFrom, Bool.and_eq_true, decide_eq_true_eq] at h
    rw [erase]
    split
    · exact wfFrom_mono (by omega) (ih h.2)
    · simp only [wfFrom, Bool.and_eq_true, decide_eq_true_eq]
      exact ⟨h.1, ih h.2⟩

theorem wfFrom_insert {low : Nat} {m : Memory} (h : wfFrom low m = true) {a : Nat} {v : Byte} (ha : Absent m a)
    (hlow : low ≤ a) (hsize : a < memorySize) (hv : v ≠ unlisted a) : wfFrom low (insert m a v) = true := by
  induction m generalizing low with
  | nil => simp [insert, wfFrom, *]
  | cons c m ih =>
    obtain ⟨b, w⟩ := c
    have hb : b ≠ a := ha (b, w) (by simp)
    simp only [wfFrom, Bool.and_eq_true, decide_eq_true_eq] at h
    rw [insert]
    split
    · rename_i hab
      simp only [wfFrom, Bool.and_eq_true, decide_eq_true_eq]
      exact ⟨⟨⟨hlow, hsize⟩, hv⟩, ⟨⟨hab, h.1.1.2⟩, h.1.2⟩, h.2⟩
    · simp only [wfFrom, Bool.and_eq_true, decide_eq_true_eq]
      exact ⟨h.1, ih h.2 (fun c hc => ha c (by simp [hc])) (by omega)⟩

/-- A write inside memory keeps the canonical form. -/
theorem wf_write {m : Memory} (h : wf m = true) {a : Nat} (ha : a < memorySize) (v : Byte) : wf (write m a v) = true := by
  rw [write]
  split
  · exact wfFrom_erase h a
  · rename_i hv
    exact wfFrom_insert (wfFrom_erase h a) (absent_erase m a) (Nat.zero_le a) ha hv

/-- Consecutive writes inside memory keep the canonical form. -/
theorem wf_writeAll {m : Memory} (h : wf m = true) {a : Nat} {bs : List Byte} (ha : a + bs.length ≤ memorySize) :
    wf (writeAll m a bs) = true := by
  induction bs generalizing m a with
  | nil => exact h
  | cons b bs ih =>
    simp only [List.length_cons] at ha
    exact ih (wf_write h (by omega) b) (by omega)

theorem read_of_lt {low : Nat} {m : Memory} (h : wfFrom low m = true) {a : Nat} (ha : a < low) :
    m.read a = unlisted a := by
  induction m generalizing low with
  | nil => rfl
  | cons c m ih =>
    obtain ⟨b, v⟩ := c
    simp only [wfFrom, Bool.and_eq_true, decide_eq_true_eq] at h
    have : a ≠ b := by omega
    rw [read, if_neg this]
    exact ih h.2 (by omega)

theorem eq_of_read {low : Nat} {m m' : Memory} (h : wfFrom low m = true) (h' : wfFrom low m' = true)
    (hr : ∀ a, low ≤ a → m.read a = m'.read a) : m = m' := by
  induction m generalizing low m' with
  | nil =>
    cases m' with
    | nil => rfl
    | cons c m' =>
      obtain ⟨b, v⟩ := c
      simp only [wfFrom, Bool.and_eq_true, decide_eq_true_eq] at h'
      exact absurd (by simpa [read] using (hr b h'.1.1.1).symm) h'.1.2
  | cons c m ih =>
    obtain ⟨b, v⟩ := c
    simp only [wfFrom, Bool.and_eq_true, decide_eq_true_eq] at h
    have hb := hr b h.1.1.1
    rw [read, if_pos rfl] at hb
    cases m' with
    | nil => exact absurd hb h.1.2
    | cons c' m' =>
      obtain ⟨b', v'⟩ := c'
      simp only [wfFrom, Bool.and_eq_true, decide_eq_true_eq] at h'
      have hb' := hr b' h'.1.1.1
      rw [show read ((b', v') :: m') b' = v' by simp [read]] at hb'
      have hbb : b = b' := by
        rcases Nat.lt_trichotomy b b' with hlt | heq | hlt
        · rw [read, if_neg (by omega), read_of_lt h'.2 (by omega)] at hb
          exact absurd hb h.1.2
        · exact heq
        · rw [read, if_neg (by omega), read_of_lt h.2 (by omega)] at hb'
          exact absurd hb'.symm h'.1.2
      subst hbb
      rw [read, if_pos rfl] at hb
      subst hb
      congr 1
      refine ih h.2 h'.2 fun a ha => ?_
      have := hr a (by omega)
      rwa [read, if_neg (by omega), read, if_neg (by omega)] at this

end Sys2Proof.Machine.Memory

namespace Sys2Proof.Machine

/-- The machine after reset has the canonical form, with any font. -/
theorem wf_resetWith (font : List Byte) : (State.resetWith font).mem.wf = true :=
  Memory.wf_writeAll rfl (by simp [memorySize])

end Sys2Proof.Machine
end

