-- ==== Sys2Proof/Laws/Access.lean ====
section
/-!
SUPPORT. The checked accesses (R74-R76): each answers exactly when its last byte is inside memory, and otherwise names
the first address that is not.
-/

namespace Sys2Proof.Machine

/-! ## Going on or raising -/

@[simp] theorem attempt_ok {α : Type} (a : α) (go : α → Result) : attempt (.ok a) go = go a := rfl

@[simp] theorem attempt_error {α : Type} (f : Fault) (go : α → Result) : attempt (.error f) go = .fault f := rfl

/-- Everything an attempt can do to give a next state. -/
theorem attempt_next {α : Type} {x : Except Fault α} {go : α → Result} {t : State} (h : attempt x go = .next t) :
    ∃ a, x = .ok a ∧ go a = .next t := by
  cases x with
  | ok a => exact ⟨a, rfl, h⟩
  | error f => cases h

namespace State

variable {s t : State} {a n : Nat}

/-! ## Bytes -/

theorem readByte_ok (h : a < memorySize) : s.readByte a = .ok (s.mem.read a) := if_pos h

theorem readByte_error (h : memorySize ≤ a) : s.readByte a = .error (.outOfRange s.pc a) := if_neg (by omega)

theorem writeByte_ok (h : a < memorySize) (b : Byte) :
    s.writeByte a b = .ok (s.setMem (s.mem.write a b)) := if_pos h

theorem writeByte_error (h : memorySize ≤ a) (b : Byte) : s.writeByte a b = .error (.outOfRange s.pc a) :=
  if_neg (by omega)

/-- The bytes of a read inside memory. -/
theorem readBytes_ok (h : a + n ≤ memorySize) :
    s.readBytes a n = .ok ((List.range n).map fun k => s.mem.read (a + k)) := by
  induction n generalizing a with
  | zero => rfl
  | succ n ih =>
    rw [readBytes, readByte_ok (by omega), ih (by omega), List.range_succ_eq_map]
    simp [Function.comp_def, Nat.add_assoc, Nat.add_comm 1]

/-- A read past the end of memory: the first address above 0xFFF. -/
theorem readBytes_error (h : memorySize < a + n) (hn : n ≠ 0) :
    s.readBytes a n = .error (.outOfRange s.pc (max a memorySize)) := by
  induction n generalizing a with
  | zero => exact absurd rfl hn
  | succ n ih =>
    rw [readBytes]
    rcases Nat.lt_or_ge a memorySize with ha | ha
    · rw [readByte_ok ha]
      by_cases h0 : n = 0
      · omega
      · rw [ih (by omega) h0, show max (a + 1) memorySize = max a memorySize by omega]
    · rw [readByte_error ha, show max a memorySize = a by omega]

/-- A read that answers is inside memory (or empty), and gives the bytes there. -/
theorem readBytes_eq_ok {bs : List Byte} (h : s.readBytes a n = .ok bs) :
    (n = 0 ∨ a + n ≤ memorySize) ∧ bs = (List.range n).map fun k => s.mem.read (a + k) := by
  by_cases hn : n = 0
  · subst hn; cases h; simp
  rcases Nat.lt_or_ge memorySize (a + n) with ha | ha
  · rw [readBytes_error ha hn] at h; cases h
  · rw [readBytes_ok ha] at h; cases h; exact ⟨.inr ha, rfl⟩

/-- The state after bytes are stored inside memory. -/
theorem writeBytes_ok {bs : List Byte} (h : a + bs.length ≤ memorySize) :
    s.writeBytes a bs = .ok (s.setMem (s.mem.writeAll a bs)) := by
  induction bs generalizing s a with
  | nil => rfl
  | cons b bs ih =>
    simp only [List.length_cons] at h
    rw [writeBytes, writeByte_ok (by omega)]
    exact ih (by omega)

/-- A store past the end of memory: the first address above 0xFFF. -/
theorem writeBytes_error {bs : List Byte} (h : memorySize < a + bs.length) (hn : bs ≠ []) :
    s.writeBytes a bs = .error (.outOfRange s.pc (max a memorySize)) := by
  induction bs generalizing s a with
  | nil => exact absurd rfl hn
  | cons b bs ih =>
    simp only [List.length_cons] at h
    rw [writeBytes]
    rcases Nat.lt_or_ge a memorySize with ha | ha
    · rw [writeByte_ok ha]
      by_cases h0 : bs = []
      · subst h0; simp at h; omega
      · simp only
        rw [ih (by omega) h0, show max (a + 1) memorySize = max a memorySize by omega, setMem_pc]
    · rw [writeByte_error ha, show max a memorySize = a by omega]

/-- A store that answers is inside memory (or empty) and changes only memory. -/
theorem writeBytes_eq_ok {bs : List Byte} (h : s.writeBytes a bs = .ok t) :
    (bs = [] ∨ a + bs.length ≤ memorySize) ∧ t = s.setMem (s.mem.writeAll a bs) := by
  by_cases hn : bs = []
  · subst hn; cases h; exact ⟨.inl rfl, rfl⟩
  rcases Nat.lt_or_ge memorySize (a + bs.length) with ha | ha
  · rw [writeBytes_error ha hn] at h; cases h
  · rw [writeBytes_ok ha] at h; cases h; exact ⟨.inr ha, rfl⟩

/-! ## Words (R77) -/

theorem readWord_ok (h : a + 1 < memorySize) :
    s.readWord a = .ok (wordOfBytes (s.mem.read a) (s.mem.read (a + 1))) := by
  rw [readWord, readByte_ok (by omega), readByte_ok h]

theorem readWord_error (h : memorySize ≤ a + 1) :
    s.readWord a = .error (.outOfRange s.pc (max a memorySize)) := by
  rw [readWord]
  rcases Nat.lt_or_ge a memorySize with ha | ha
  · rw [readByte_ok ha, readByte_error h, show a + 1 = max a memorySize by omega]
  · rw [readByte_error ha, show max a memorySize = a by omega]

theorem readWord_eq_ok {w : Word} (h : s.readWord a = .ok w) :
    a + 1 < memorySize ∧ w = wordOfBytes (s.mem.read a) (s.mem.read (a + 1)) := by
  rcases Nat.lt_or_ge (a + 1) memorySize with ha | ha
  · rw [readWord_ok ha] at h; cases h; exact ⟨ha, rfl⟩
  · rw [readWord_error ha] at h; cases h

theorem writeWord_ok (h : a + 1 < memorySize) (w : Word) :
    s.writeWord a w = .ok (s.setMem (s.mem.writeAll a [Word.hi w, Word.lo w])) :=
  writeBytes_ok (by simp; omega)

theorem writeWord_error (h : memorySize ≤ a + 1) (w : Word) :
    s.writeWord a w = .error (.outOfRange s.pc (max a memorySize)) :=
  writeBytes_error (by simp; omega) (by simp)

theorem writeWord_eq_ok {w : Word} (h : s.writeWord a w = .ok t) :
    a + 1 < memorySize ∧ t = s.setMem (s.mem.writeAll a [Word.hi w, Word.lo w]) := by
  obtain ⟨h1, h2⟩ := writeBytes_eq_ok h
  simp at h1
  exact ⟨by omega, h2⟩

/-! ## The fetch (R120) -/

theorem fetch_ok (h : s.pc.toNat + 1 < memorySize) :
    s.fetch = .ok (wordOfBytes (s.mem.read s.pc.toNat) (s.mem.read (s.pc.toNat + 1))) := readWord_ok h

theorem fetch_error (h : memorySize ≤ s.pc.toNat + 1) :
    s.fetch = .error (.outOfRange s.pc (max s.pc.toNat memorySize)) := readWord_error h

end State

end Sys2Proof.Machine
end

