-- ==== Sys2Proof/Laws/Display.lean ====
section
/-!
SUPPORT. The display: a pixel read after a pixel is written, and everything a draw does, pixel by pixel (R251, R253).
-/

namespace Sys2Proof.Machine

/-! ## One bit of a byte -/

theorem putBit_getLsbD (b : Byte) {k j : Nat} (hk : k < 8) (hj : j < 8) (p : Bool) :
    (putBit b k p).getLsbD j = if j = k then p else b.getLsbD j := by
  have one : ((1 : Byte) <<< k).getLsbD j = decide (j = k) := by
    rw [BitVec.getLsbD_shiftLeft]
    rcases Nat.lt_trichotomy j k with h | h | h
    · have : j ≠ k := by omega
      simp [h, this]
    · subst h; simp [hj]
    · have h0 : j - k ≠ 0 := by omega
      have : j ≠ k := by omega
      simp [h0, this, BitVec.getLsbD_one]
  unfold putBit
  by_cases h : j = k <;> cases p <;> simp_all
  intros; omega

/-! ## Where a pixel lies (R251) -/

theorem pixelBit_lt (x : Nat) : pixelBit x < 8 := by unfold pixelBit; omega

/-- Two pixels of the display share a byte and a bit only if they are the same pixel. -/
theorem pixel_place_inj {x y x' y' : Nat} (hx : x < 64) (hx' : x' < 64) (ha : pixelAddr x y = pixelAddr x' y')
    (hb : pixelBit x = pixelBit x') : x = x' ∧ y = y' := by
  unfold pixelAddr framebufferBase at ha
  unfold pixelBit at hb
  omega

/-- A pixel of the display lies in the framebuffer (R250). -/
theorem pixelAddr_range {x y : Nat} (hx : x < 64) (hy : y < 32) :
    framebufferBase ≤ pixelAddr x y ∧ pixelAddr x y < framebufferBase + framebufferSize := by
  unfold pixelAddr framebufferBase framebufferSize; omega

theorem pixelAddr_lt {x y : Nat} (hx : x < 64) (hy : y < 32) : pixelAddr x y < memorySize := by
  unfold pixelAddr framebufferBase memorySize; omega

/-- A pixel read after a pixel is written. -/
theorem pixel_setPixel (m : Memory) {x y x' y' : Nat} (hx : x < 64) (hx' : x' < 64) (p : Bool) :
    pixel (setPixel m x y p) x' y' = if x' = x ∧ y' = y then p else pixel m x' y' := by
  unfold pixel setPixel
  rw [Memory.read_write]
  by_cases ha : pixelAddr x' y' = pixelAddr x y
  · rw [if_pos ha, putBit_getLsbD _ (pixelBit_lt x) (pixelBit_lt x'), ha]
    by_cases hb : pixelBit x' = pixelBit x
    · rw [if_pos hb, if_pos (pixel_place_inj hx' hx ha hb)]
    · rw [if_neg hb, if_neg]
      rintro ⟨rfl, -⟩
      exact hb rfl
  · rw [if_neg ha, if_neg]
    rintro ⟨rfl, rfl⟩
    exact ha rfl

/-! ## What a sprite draws -/

/-- The bits of one row from the k-th on: the pixels they fall on are inverted, and no other. -/
theorem drawBits_pixel (c : Canvas) (x0 y : Nat) (byte : Byte) (k n : Nat) (hk : k + n ≤ 8) {px : Nat} (hpx : px < 64)
    (py : Nat) : pixel (drawBits c x0 y byte k n).mem px py =
      (pixel c.mem px py ^^ (decide (py = y) && decide (x0 + k ≤ px) && decide (px < x0 + k + n) &&
        byte.getLsbD (7 - (px - x0)))) := by
  induction n generalizing c k with
  | zero =>
    by_cases h : x0 + k ≤ px
    · have : ¬ px < x0 + k := by omega
      simp [drawBits, this]
    · simp [drawBits, h]
  | succ n ih =>
    rw [drawBits, ih _ _ (by omega)]
    unfold drawBit
    split
    · have h1 : ¬ px = x0 + k := by omega
      have h2 : (x0 + (k + 1) ≤ px) ↔ x0 + k ≤ px := by omega
      have h3 : (px < x0 + (k + 1) + n) ↔ px < x0 + k + (n + 1) := by omega
      simp [h2, h3]
    · rename_i hx
      by_cases hp : px = x0 + k
      · subst hp
        have h4 : x0 + k - x0 = k := by omega
        by_cases hb : byte.getLsbD (7 - k) = true
        · rw [if_pos hb, pixel_setPixel _ hpx hpx]
          by_cases hy : py = y <;> simp [hy, h4, hb]
        · rw [if_neg hb]
          simp [h4, hb]
      · have h2 : (x0 + (k + 1) ≤ px) ↔ x0 + k ≤ px := by omega
        have h3 : (px < x0 + (k + 1) + n) ↔ px < x0 + k + (n + 1) := by omega
        split
        · rw [pixel_setPixel _ (by omega) hpx]; simp [hp, h2, h3]
        · simp [h2, h3]

/-- The bits of one row: the hit is set exactly by a bit that falls on a pixel that was on. -/
theorem drawBits_hit (c : Canvas) (x0 y : Nat) (byte : Byte) (k n : Nat) (hk : k + n ≤ 8) :
    (drawBits c x0 y byte k n).hit = true ↔ c.hit = true ∨
      ∃ px, px < 64 ∧ x0 + k ≤ px ∧ px < x0 + k + n ∧ byte.getLsbD (7 - (px - x0)) = true ∧
        pixel c.mem px y = true := by
  induction n generalizing c k with
  | zero =>
    constructor
    · exact .inl
    · rintro (h | ⟨px, -, h1, h2, -⟩)
      · exact h
      · omega
  | succ n ih =>
    rw [drawBits, ih _ _ (by omega)]
    have keep : ∀ px, px < 64 → x0 + (k + 1) ≤ px →
        pixel (drawBit c (x0 + k) y (byte.getLsbD (7 - k))).mem px y = pixel c.mem px y := by
      intro px h1 h2
      unfold drawBit
      split
      · rfl
      · split
        · rw [pixel_setPixel _ (by omega) h1, if_neg]
          omega
        · rfl
    have hit : (drawBit c (x0 + k) y (byte.getLsbD (7 - k))).hit = true ↔ c.hit = true ∨
        (x0 + k < 64 ∧ byte.getLsbD (7 - k) = true ∧ pixel c.mem (x0 + k) y = true) := by
      unfold drawBit
      split
      · constructor
        · exact .inl
        · rintro (h | ⟨h, -⟩)
          · exact h
          · omega
      · rename_i hx
        have : x0 + k < 64 := by omega
        split
        · rename_i hb; simp [hb, this]
        · rename_i hb; simp [hb]
    rw [hit]
    constructor
    · rintro ((h | ⟨h1, h2, h3⟩) | ⟨px, h1, h2, h3, h4, h5⟩)
      · exact .inl h
      · exact .inr ⟨x0 + k, h1, by omega, by omega, by rwa [show x0 + k - x0 = k by omega], h3⟩
      · exact .inr ⟨px, h1, by omega, by omega, h4, by rwa [keep px h1 h2] at h5⟩
    · rintro (h | ⟨px, h1, h2, h3, h4, h5⟩)
      · exact .inl (.inl h)
      · by_cases hp : px = x0 + k
        · subst hp
          exact .inl (.inr ⟨h1, by rwa [show x0 + k - x0 = k by omega] at h4, h5⟩)
        · exact .inr ⟨px, h1, by omega, by omega, h4, by rwa [keep px h1 (by omega)]⟩

/-- One row: the pixels its bits fall on are inverted, the clipped ones left out. -/
theorem drawRow_pixel (c : Canvas) (x0 y : Nat) (byte : Byte) {px py : Nat} (hpx : px < 64) (hpy : py < 32) :
    pixel (drawRow c x0 y byte).mem px py = (pixel c.mem px py ^^ (decide (py = y) && rowBit byte x0 px)) := by
  unfold drawRow rowBit
  split
  · have : ¬ py = y := by omega
    simp [this]
  · rw [drawBits_pixel _ _ _ _ _ _ (by omega) hpx]
    simp [Bool.and_assoc]

/-- One row: the hit is set exactly by a visible bit that falls on a pixel that was on. -/
theorem drawRow_hit (c : Canvas) (x0 y : Nat) (byte : Byte) :
    (drawRow c x0 y byte).hit = true ↔ c.hit = true ∨
      (y < 32 ∧ ∃ px, px < 64 ∧ rowBit byte x0 px = true ∧ pixel c.mem px y = true) := by
  unfold drawRow rowBit
  split
  · constructor
    · exact .inl
    · rintro (h | ⟨h, -⟩)
      · exact h
      · omega
  · rename_i hy
    rw [drawBits_hit _ _ _ _ _ _ (by omega)]
    have : y < 32 := by omega
    simp [this, and_assoc]

/-- A whole sprite: the visible pixels its set bits fall on are inverted, and no other (R253). -/
theorem drawRows_pixel (c : Canvas) (x0 y0 : Nat) (sprite : List Byte) {px py : Nat} (hpx : px < 64) (hpy : py < 32) :
    pixel (drawRows c x0 y0 sprite).mem px py = (pixel c.mem px py ^^ spriteBit sprite x0 y0 px py) := by
  induction sprite generalizing c y0 with
  | nil => simp [drawRows, spriteBit, rowBit]
  | cons b bs ih =>
    rw [drawRows, ih, drawRow_pixel _ _ _ _ hpx hpy]
    unfold spriteBit
    rcases Nat.lt_trichotomy py y0 with h | h | h
    · have h1 : ¬ y0 + 1 ≤ py := by omega
      have h2 : ¬ y0 ≤ py := by omega
      have h3 : ¬ py = y0 := by omega
      simp [h1, h2, h3]
    · subst h; simp
    · have h1 : y0 + 1 ≤ py := by omega
      have h2 : y0 ≤ py := by omega
      have h3 : ¬ py = y0 := by omega
      have h4 : py - y0 = py - (y0 + 1) + 1 := by omega
      simp [h1, h2, h3, h4]

/-- A whole sprite: the hit is set exactly by a visible set bit that falls on a pixel that was on (R253). -/
theorem drawRows_hit (c : Canvas) (x0 y0 : Nat) (sprite : List Byte) :
    (drawRows c x0 y0 sprite).hit = true ↔ c.hit = true ∨
      ∃ px py, px < 64 ∧ py < 32 ∧ spriteBit sprite x0 y0 px py = true ∧ pixel c.mem px py = true := by
  induction sprite generalizing c y0 with
  | nil => simp [drawRows, spriteBit, rowBit]
  | cons b bs ih =>
    rw [drawRows, ih, drawRow_hit]
    have below : ∀ px py, y0 + 1 ≤ py → spriteBit (b :: bs) x0 y0 px py = spriteBit bs x0 (y0 + 1) px py := by
      intro px py h
      have h4 : py - y0 = py - (y0 + 1) + 1 := by omega
      have h2 : y0 ≤ py := by omega
      simp [spriteBit, h, h2, h4]
    have keep : ∀ px py, px < 64 → py < 32 → y0 + 1 ≤ py →
        pixel (drawRow c x0 y0 b).mem px py = pixel c.mem px py := by
      intro px py h1 h2 h3
      have : ¬ py = y0 := by omega
      rw [drawRow_pixel _ _ _ _ h1 h2]; simp [this]
    have later : ∀ px py, spriteBit bs x0 (y0 + 1) px py = true → y0 + 1 ≤ py := by
      intro px py h
      simp only [spriteBit, Bool.and_eq_true, decide_eq_true_eq] at h
      exact h.1
    constructor
    · rintro ((h | ⟨h1, px, h2, h3, h4⟩) | ⟨px, py, h1, h2, h3, h4⟩)
      · exact .inl h
      · exact .inr ⟨px, y0, h2, h1, by simpa [spriteBit] using h3, h4⟩
      · have hy := later px py h3
        exact .inr ⟨px, py, h1, h2, by rwa [below px py hy], by rwa [keep px py h1 h2 hy] at h4⟩
    · rintro (h | ⟨px, py, h1, h2, h3, h4⟩)
      · exact .inl (.inl h)
      · by_cases hp : py = y0
        · subst hp
          exact .inl (.inr ⟨h2, px, h1, by simpa [spriteBit] using h3, h4⟩)
        · have hle : y0 ≤ py := by
            simp only [spriteBit, Bool.and_eq_true, decide_eq_true_eq] at h3
            exact h3.1
          have hy : y0 + 1 ≤ py := by omega
          exact .inr ⟨px, py, h1, h2, by rwa [below px py hy] at h3, by rwa [keep px py h1 h2 hy]⟩

/-! ## What a draw leaves alone -/

/-- One invariant of memory under every pixel write of the display holds after a draw. -/
theorem drawRows_induction {P : Memory → Prop}
    (hP : ∀ m x y p, x < 64 → y < 32 → P m → P (setPixel m x y p)) (c : Canvas) (x0 y0 : Nat) (sprite : List Byte)
    (h : P c.mem) : P (drawRows c x0 y0 sprite).mem := by
  have hbits : ∀ (n k : Nat) (c : Canvas) (y : Nat) (byte : Byte), y < 32 → P c.mem →
      P (drawBits c x0 y byte k n).mem := by
    intro n
    induction n with
    | zero => intro k c y byte _ h; exact h
    | succ n ih =>
      intro k c y byte hy h
      refine ih _ _ _ _ hy ?_
      unfold drawBit
      split
      · exact h
      · split
        · exact hP _ _ _ _ (by omega) hy h
        · exact h
  induction sprite generalizing c y0 with
  | nil => exact h
  | cons b bs ih =>
    refine ih _ _ ?_
    unfold drawRow
    split
    · exact h
    · exact hbits _ _ _ _ _ (by omega) h

/-- A draw changes no byte outside the framebuffer. -/
theorem drawRows_read_outside (c : Canvas) (x0 y0 : Nat) (sprite : List Byte) {a : Nat}
    (ha : a < framebufferBase ∨ framebufferBase + framebufferSize ≤ a) :
    (drawRows c x0 y0 sprite).mem.read a = c.mem.read a := by
  refine drawRows_induction (P := fun m => m.read a = c.mem.read a) ?_ c x0 y0 sprite rfl
  intro m x y p hx hy h
  have := pixelAddr_range hx hy
  rw [setPixel, Memory.read_write, if_neg (by omega), h]

/-- A draw keeps the canonical form of memory. -/
theorem drawRows_wf (c : Canvas) (x0 y0 : Nat) (sprite : List Byte) (h : c.mem.wf = true) :
    (drawRows c x0 y0 sprite).mem.wf = true :=
  drawRows_induction (P := fun m => m.wf = true)
    (fun _ _ _ _ hx hy h => Memory.wf_write h (pixelAddr_lt hx hy) _) c x0 y0 sprite h

/-! ## Clearing (R252) -/

theorem clearFramebuffer_read (m : Memory) (a : Nat) :
    (clearFramebuffer m).read a =
      if framebufferBase ≤ a ∧ a < framebufferBase + framebufferSize then 0 else m.read a := by
  unfold clearFramebuffer
  rw [Memory.read_writeAll]
  by_cases h1 : framebufferBase ≤ a
  · by_cases h2 : a < framebufferBase + framebufferSize
    · have : a - framebufferBase < framebufferSize := by omega
      simp [h1, h2, this]
    · have : ¬ a - framebufferBase < framebufferSize := by omega
      simp [h1, h2, this]
  · simp [h1]

theorem clearFramebuffer_wf {m : Memory} (h : m.wf = true) : (clearFramebuffer m).wf = true :=
  Memory.wf_writeAll h (by rw [List.length_replicate]; unfold framebufferBase framebufferSize memorySize; omega)

end Sys2Proof.Machine
end

