-- ==== Sys2Proof/Laws/Exec.lean ====
section
/-!
SUPPORT. What the instructions with a memory access answer: the next state where every byte is inside memory, the fault
where one is not; and, from a next state, that the access was inside memory. The others answer by definition.
-/

namespace Sys2Proof.Machine

/-! ## 00EE and 2NNN (R140, R142) -/

theorem exec_ret_next {s : State} (h : s.popSlot + 1 < memorySize) :
    exec .ret s =
      .next ({ s with sp := s.sp - 2 }.jump (wordOfBytes (s.mem.read s.popSlot) (s.mem.read (s.popSlot + 1)))) := by
  rw [exec, execRet, State.readWord_ok h, attempt_ok]

theorem exec_ret_fault {s : State} (h : memorySize ≤ s.popSlot + 1) :
    exec .ret s = .fault (.outOfRange s.pc (max s.popSlot memorySize)) := by
  rw [exec, execRet, State.readWord_error h, attempt_error]

theorem exec_call_next {s : State} (nnn : Addr) (h : s.pushSlot + 1 < memorySize) :
    exec (.call nnn) s =
      .next ({ s with
        mem := s.mem.writeAll s.pushSlot [Word.hi s.returnAddress, Word.lo s.returnAddress]
        sp := s.pushedSp }.jump (zext16 nnn)) := by
  rw [exec, execCall, State.writeWord_ok h, attempt_ok]; rfl

theorem exec_call_fault {s : State} (nnn : Addr) (h : memorySize ≤ s.pushSlot + 1) :
    exec (.call nnn) s = .fault (.outOfRange s.pc (max s.pushSlot memorySize)) := by
  rw [exec, execCall, State.writeWord_error h, attempt_error]

/-! ## FX33, FX55, FX65 (R223-R225) -/

theorem indexAddr_lt (s : State) : s.indexAddr < memorySize := s.index.isLt

theorem exec_ldB_next {s : State} (x : Nibble) (h : s.indexAddr + 3 ≤ memorySize) :
    exec (.ldB x) s =
      .next (s.setMem (s.mem.writeAll s.indexAddr (decimalDigits (s.reg x)))).advance := by
  rw [exec, execLdB, State.writeBytes_ok (by simpa [decimalDigits] using h), attempt_ok]

theorem exec_ldB_fault {s : State} (x : Nibble) (h : memorySize < s.indexAddr + 3) :
    exec (.ldB x) s = .fault (.outOfRange s.pc memorySize) := by
  rw [exec, execLdB, State.writeBytes_error (by simpa [decimalDigits] using h) (by simp [decimalDigits]), attempt_error,
    Nat.max_eq_right (Nat.le_of_lt (indexAddr_lt s))]

theorem exec_storeRegs_next {s : State} (x : Nibble) (h : s.indexAddr + regCount x ≤ memorySize) :
    exec (.storeRegs x) s =
      .next (s.setMem (s.mem.writeAll s.indexAddr (s.regsBelow (regCount x)))).advance := by
  rw [exec, execStoreRegs, State.writeBytes_ok (by simpa using h), attempt_ok]

theorem exec_storeRegs_fault {s : State} (x : Nibble) (h : memorySize < s.indexAddr + regCount x) :
    exec (.storeRegs x) s = .fault (.outOfRange s.pc memorySize) := by
  have hne : s.regsBelow (regCount x) ≠ [] := fun e => by
    have := congrArg List.length e
    simp [regCount] at this
  rw [exec, execStoreRegs, State.writeBytes_error (by simpa using h) hne, attempt_error,
    Nat.max_eq_right (Nat.le_of_lt (indexAddr_lt s))]

theorem exec_loadRegs_next {s : State} (x : Nibble) (h : s.indexAddr + regCount x ≤ memorySize) :
    exec (.loadRegs x) s =
      .next (s.setRegsFrom 0 ((List.range (regCount x)).map fun k => s.mem.read (s.indexAddr + k))).advance := by
  rw [exec, execLoadRegs, State.readBytes_ok h, attempt_ok]

theorem exec_loadRegs_fault {s : State} (x : Nibble) (h : memorySize < s.indexAddr + regCount x) :
    exec (.loadRegs x) s = .fault (.outOfRange s.pc memorySize) := by
  rw [exec, execLoadRegs, State.readBytes_error h (by simp [regCount]), attempt_error,
    Nat.max_eq_right (Nat.le_of_lt (indexAddr_lt s))]

/-! ## 00E0 (R252) -/

theorem exec_cls_next (s : State) : exec .cls s = .next (s.setMem (clearFramebuffer s.mem)).advance := rfl

/-! ## DXYN (R253) -/

/-- The canvas a draw leaves. -/
def drawn (x y n : Nibble) (s : State) : Canvas :=
  drawRows ⟨s.mem, false⟩ (originX (s.reg x)) (originY (s.reg y)) (spriteAt s n.toNat)

theorem exec_drw_next {s : State} (x y n : Nibble) (h : n.toNat = 0 ∨ s.indexAddr + n.toNat ≤ memorySize) :
    exec (.drw x y n) s =
      .next ((s.setMem (drawn x y n s).mem).setFlag (drawn x y n s).hit).advance := by
  have hr : s.readBytes s.indexAddr n.toNat = .ok (spriteAt s n.toNat) := by
    rcases h with h | h
    · rw [h]; rfl
    · exact State.readBytes_ok h
  rw [exec, execDrw, hr]; rfl

theorem exec_drw_fault {s : State} (x y n : Nibble) (h0 : n.toNat ≠ 0) (h : memorySize < s.indexAddr + n.toNat) :
    exec (.drw x y n) s = .fault (.outOfRange s.pc memorySize) := by
  rw [exec, execDrw, State.readBytes_error h h0, attempt_error, Nat.max_eq_right (Nat.le_of_lt (indexAddr_lt s))]

/-! ## Load (R353) -/

theorem load_next (s : State) {bytes : List Byte} (h : bytes.length ≤ 3584) :
    s.load bytes = .next (s.setMem (s.mem.writeAll loadBase bytes)).closeLoad :=
  if_pos (by simp [programFits]; omega)

theorem load_refused (s : State) {bytes : List Byte} (h : 3584 < bytes.length) :
    s.load bytes = .refused (.loadTooLarge bytes.length) :=
  if_neg (by simp [programFits]; omega)

/-! ## From a next state back to the access -/

theorem exec_ret_inv {s t : State} (h : exec .ret s = .next t) : s.popSlot + 1 < memorySize := by
  rcases Nat.lt_or_ge (s.popSlot + 1) memorySize with hs | hs
  · exact hs
  · rw [exec_ret_fault hs] at h; cases h

theorem exec_call_inv {s t : State} {nnn : Addr} (h : exec (.call nnn) s = .next t) : s.pushSlot + 1 < memorySize := by
  rcases Nat.lt_or_ge (s.pushSlot + 1) memorySize with hs | hs
  · exact hs
  · rw [exec_call_fault nnn hs] at h; cases h

theorem exec_ldB_inv {s t : State} {x : Nibble} (h : exec (.ldB x) s = .next t) : s.indexAddr + 3 ≤ memorySize := by
  rcases Nat.lt_or_ge memorySize (s.indexAddr + 3) with hs | hs
  · rw [exec_ldB_fault x hs] at h; cases h
  · exact hs

theorem exec_storeRegs_inv {s t : State} {x : Nibble} (h : exec (.storeRegs x) s = .next t) :
    s.indexAddr + regCount x ≤ memorySize := by
  rcases Nat.lt_or_ge memorySize (s.indexAddr + regCount x) with hs | hs
  · rw [exec_storeRegs_fault x hs] at h; cases h
  · exact hs

theorem exec_loadRegs_inv {s t : State} {x : Nibble} (h : exec (.loadRegs x) s = .next t) :
    s.indexAddr + regCount x ≤ memorySize := by
  rcases Nat.lt_or_ge memorySize (s.indexAddr + regCount x) with hs | hs
  · rw [exec_loadRegs_fault x hs] at h; cases h
  · exact hs

theorem exec_drw_inv {s t : State} {x y n : Nibble} (h : exec (.drw x y n) s = .next t) :
    n.toNat = 0 ∨ s.indexAddr + n.toNat ≤ memorySize := by
  by_cases h0 : n.toNat = 0
  · exact .inl h0
  rcases Nat.lt_or_ge memorySize (s.indexAddr + n.toNat) with hs | hs
  · rw [exec_drw_fault x y n h0 hs] at h; cases h
  · exact .inr hs

end Sys2Proof.Machine
end

