-- ==== Sys2Proof/Laws/PerInstr.lean ====
section
/-!
SUPPORT. Statements made per instruction: family EncodeMatchesRow, "the word of the instruction selects its own row of
the table of R112".
-/

namespace Sys2Proof.Laws.EncodeMatchesRow

/-- The word of an instruction selects its row of the opcode table (R112). -/
def Statement (i : Instr) : Prop := (rowOf i).selects (encode i) = true

/-- A word with the fields of the row's value where the mask is set selects the row. -/
theorem selects_of_fields {r : OpcodeRow} {w : Word} (hop : fieldOp w &&& fieldOp r.mask = fieldOp r.value)
    (hx : fieldX w &&& fieldX r.mask = fieldX r.value) (hy : fieldY w &&& fieldY r.mask = fieldY r.value)
    (hn : fieldN w &&& fieldN r.mask = fieldN r.value) : r.selects w = true := by
  have h : w &&& r.mask = r.value :=
    word_ext (BitVec.extractLsb'_and.trans hop) (BitVec.extractLsb'_and.trans hx)
      (BitVec.extractLsb'_and.trans hy) (BitVec.extractLsb'_and.trans hn)
  simp [OpcodeRow.selects, h]

/-- Mask 0xF000: the opcode nibble alone. -/
theorem selects_of_op {w : Word} {a : Nibble} (h : fieldOp w = a) :
    (⟨packNibbles a 0 0 0, 0xF000⟩ : OpcodeRow).selects w = true := by
  subst h
  refine selects_of_fields ?_ ?_ ?_ ?_
  · simp only [fieldOp_packNibbles]; exact BitVec.and_allOnes
  · simp only [fieldX_packNibbles]; exact BitVec.and_zero
  · simp only [fieldY_packNibbles]; exact BitVec.and_zero
  · simp only [fieldN_packNibbles]; exact BitVec.and_zero

/-- Mask 0xF00F: the opcode nibble and N. -/
theorem selects_of_op_n (a x y n : Nibble) :
    (⟨packNibbles a 0 0 n, 0xF00F⟩ : OpcodeRow).selects (packNibbles a x y n) = true := by
  refine selects_of_fields ?_ ?_ ?_ ?_ <;> simp
  · exact BitVec.and_allOnes
  · exact BitVec.and_zero
  · exact BitVec.and_zero
  · exact BitVec.and_allOnes

/-- Mask 0xF0FF: the opcode nibble and NN. -/
theorem selects_of_op_nn (a x : Nibble) (nn : Byte) :
    (⟨(a ++ (0 : Nibble) ++ nn : Word), 0xF0FF⟩ : OpcodeRow).selects (a ++ x ++ nn) = true := by
  have hy : ∀ z : Nibble, fieldY (a ++ z ++ nn) = nn.extractLsb' 4 4 := fun z => by
    rw [fieldY_eq]; exact congrArg _ (lo_wordOfBytes (a ++ z) nn)
  have hn : ∀ z : Nibble, fieldN (a ++ z ++ nn) = nn.extractLsb' 0 4 := fun z => by
    rw [fieldN_eq]; exact congrArg _ (lo_wordOfBytes (a ++ z) nn)
  refine selects_of_fields ?_ ?_ ?_ ?_
  · simp only [fieldOp_xnn]; exact BitVec.and_allOnes
  · simp only [fieldX_xnn]; exact BitVec.and_zero
  · rw [hy, hy, show fieldY (0xF0FF : Word) = BitVec.allOnes 4 from rfl, BitVec.and_allOnes]
  · rw [hn, hn, show fieldN (0xF0FF : Word) = BitVec.allOnes 4 from rfl, BitVec.and_allOnes]

theorem cls : Statement .cls := rfl

theorem ret : Statement .ret := rfl

theorem jp (nnn : Addr) : Statement (.jp nnn) := selects_of_op (fieldOp_nnn _ _)

theorem call (nnn : Addr) : Statement (.call nnn) := selects_of_op (fieldOp_nnn _ _)

theorem seImm (x : Nibble) (nn : Byte) : Statement (.seImm x nn) := selects_of_op (fieldOp_xnn _ _ _)

theorem sneImm (x : Nibble) (nn : Byte) : Statement (.sneImm x nn) := selects_of_op (fieldOp_xnn _ _ _)

theorem seReg (x y : Nibble) : Statement (.seReg x y) := selects_of_op_n _ _ _ _

theorem ldImm (x : Nibble) (nn : Byte) : Statement (.ldImm x nn) := selects_of_op (fieldOp_xnn _ _ _)

theorem addImm (x : Nibble) (nn : Byte) : Statement (.addImm x nn) := selects_of_op (fieldOp_xnn _ _ _)

theorem ldReg (x y : Nibble) : Statement (.ldReg x y) := selects_of_op_n _ _ _ _

theorem orReg (x y : Nibble) : Statement (.orReg x y) := selects_of_op_n _ _ _ _

theorem andReg (x y : Nibble) : Statement (.andReg x y) := selects_of_op_n _ _ _ _

theorem xorReg (x y : Nibble) : Statement (.xorReg x y) := selects_of_op_n _ _ _ _

theorem addReg (x y : Nibble) : Statement (.addReg x y) := selects_of_op_n _ _ _ _

theorem sub (x y : Nibble) : Statement (.sub x y) := selects_of_op_n _ _ _ _

theorem shr (x : Nibble) : Statement (.shr x) := selects_of_op_n _ _ _ _

theorem subn (x y : Nibble) : Statement (.subn x y) := selects_of_op_n _ _ _ _

theorem shl (x : Nibble) : Statement (.shl x) := selects_of_op_n _ _ _ _

theorem sneReg (x y : Nibble) : Statement (.sneReg x y) := selects_of_op_n _ _ _ _

theorem ldI (nnn : Addr) : Statement (.ldI nnn) := selects_of_op (fieldOp_nnn _ _)

theorem jpV0 (nnn : Addr) : Statement (.jpV0 nnn) := selects_of_op (fieldOp_nnn _ _)

theorem rnd (x : Nibble) (nn : Byte) : Statement (.rnd x nn) := selects_of_op (fieldOp_xnn _ _ _)

theorem drw (x y n : Nibble) : Statement (.drw x y n) := selects_of_op (fieldOp_packNibbles _ _ _ _)

theorem skp (x : Nibble) : Statement (.skp x) := selects_of_op_nn _ _ _

theorem sknp (x : Nibble) : Statement (.sknp x) := selects_of_op_nn _ _ _

theorem ldVxDt (x : Nibble) : Statement (.ldVxDt x) := selects_of_op_nn _ _ _

theorem ldVxK (x : Nibble) : Statement (.ldVxK x) := selects_of_op_nn _ _ _

theorem ldDtVx (x : Nibble) : Statement (.ldDtVx x) := selects_of_op_nn _ _ _

theorem ldStVx (x : Nibble) : Statement (.ldStVx x) := selects_of_op_nn _ _ _

theorem addI (x : Nibble) : Statement (.addI x) := selects_of_op_nn _ _ _

theorem ldF (x : Nibble) : Statement (.ldF x) := selects_of_op_nn _ _ _

theorem ldB (x : Nibble) : Statement (.ldB x) := selects_of_op_nn _ _ _

theorem storeRegs (x : Nibble) : Statement (.storeRegs x) := selects_of_op_nn _ _ _

theorem loadRegs (x : Nibble) : Statement (.loadRegs x) := selects_of_op_nn _ _ _

end Sys2Proof.Laws.EncodeMatchesRow
end

