-- ==== Sys2Proof/Tests/Slice0.lean ====
section
/-!
SUPPORT. Tests of one step each, with the results of 95_test_vectors.md (its ids are in the comments), the decoding of
every constructor from a word written out from 30_encoding.md R112, and a witness for every statement with hypotheses.
-/

namespace Sys2Proof.Tests

open Sys2Proof.Machine

/-! ## Helpers -/

/-- Reset with some registers and bytes of memory written. -/
def machine (regs : List (Nibble × Byte)) (cells : List (Nat × Byte)) : State :=
  (regs.foldl (fun s p => s.setReg p.1 p.2) State.reset).setMem
    (cells.foldl (fun m p => Memory.write m p.1 p.2) [])

/-- The next state, where there is one. -/
def next? : Result → Option State
  | .next t => some t
  | .fault _ => none
  | .refused _ => none

/-- The fault, where there is one. -/
def fault? : Result → Option Fault
  | .next _ => none
  | .fault f => some f
  | .refused _ => none

/-- The refusal, where there is one. -/
def refusal? : Result → Option Refusal
  | .next _ => none
  | .fault _ => none
  | .refused r => some r

/-- An answer with a next state is one. -/
theorem exists_next {r : Result} (h : (next? r).isSome = true) : ∃ t, r = .next t := by
  cases r with
  | next t => exact ⟨t, rfl⟩
  | fault f => cases h
  | refused q => cases h

/-- The word placed at PC, and one step. -/
def run (w : Nat) (s : State) : Option State := next? (step (s.withFetchWord 16 w))

/-- The fault of that step. -/
def runFault (w : Nat) (s : State) : Option Fault := fault? (step (s.withFetchWord 16 w))

/-! ## Well-formedness -/

/-- Whether a program of n bytes fits. -/
theorem programFits_replicate (n : Nat) : programFits (List.replicate n 0) = decide (0x200 + n ≤ 0x1000) := by
  simp [programFits]

/-- LD1: 3584 bytes fit. -/
theorem test_program_fits : programFits (List.replicate 3584 0) = true := programFits_replicate 3584

/-- LD2: 3585 bytes do not. -/
theorem test_program_too_large_refused : programFits (List.replicate 3585 0) = false := programFits_replicate 3585

/-- No instruction term is ill formed: an operand out of range is no term of its field's type. -/
theorem test_instructions_well_formed (i : Instr) : i.wellFormed = true := by cases i <;> rfl

/-! ## Decoding: a word of every row of R112, and of the Unsupported space -/

theorem test_decode_control : decode 0x00EE = some .ret ∧ decode 0x1ABC = some (.jp 0xABC) ∧
    decode 0x2DEF = some (.call 0xDEF) ∧ decode 0xB123 = some (.jpV0 0x123) := by decide

theorem test_decode_skips : decode 0x3342 = some (.seImm 0x3 0x42) ∧ decode 0x4F81 = some (.sneImm 0xF 0x81) ∧
    decode 0x5120 = some (.seReg 0x1 0x2) ∧ decode 0x9AB0 = some (.sneReg 0xA 0xB) ∧
    decode 0xE59E = some (.skp 0x5) ∧ decode 0xE0A1 = some (.sknp 0x0) := by decide

theorem test_decode_loads : decode 0x6A05 = some (.ldImm 0xA 0x05) ∧ decode 0x72FE = some (.addImm 0x2 0xFE) ∧
    decode 0x8120 = some (.ldReg 0x1 0x2) ∧ decode 0xC40F = some (.rnd 0x4 0x0F) := by decide

theorem test_decode_logic : decode 0x8121 = some (.orReg 0x1 0x2) ∧ decode 0x8122 = some (.andReg 0x1 0x2) ∧
    decode 0x8123 = some (.xorReg 0x1 0x2) := by decide

theorem test_decode_arithmetic : decode 0x8124 = some (.addReg 0x1 0x2) ∧ decode 0x8125 = some (.sub 0x1 0x2) ∧
    decode 0x8126 = some (.shr 0x1) ∧ decode 0x8127 = some (.subn 0x1 0x2) ∧ decode 0x81FE = some (.shl 0x1) := by
  decide

theorem test_decode_index : decode 0xA2F0 = some (.ldI 0x2F0) ∧ decode 0xF21E = some (.addI 0x2) ∧
    decode 0xF729 = some (.ldF 0x7) ∧ decode 0xF133 = some (.ldB 0x1) ∧ decode 0xF555 = some (.storeRegs 0x5) ∧
    decode 0xF265 = some (.loadRegs 0x2) := by decide

theorem test_decode_display : decode 0x00E0 = some .cls ∧ decode 0xD125 = some (.drw 0x1 0x2 0x5) := by decide

theorem test_decode_timers_keys : decode 0xF407 = some (.ldVxDt 0x4) ∧ decode 0xF20A = some (.ldVxK 0x2) ∧
    decode 0xF315 = some (.ldDtVx 0x3) ∧ decode 0xF618 = some (.ldStVx 0x6) := by decide

/-- DE3, DE4. -/
theorem test_decode_unsupported : [0x00E1, 0x00EF, 0x00FF, 0x5121, 0x9121, 0x8128, 0x812F, 0xE19F, 0xE1A2, 0xF1FF,
    0xF175, 0xF100].all (fun w => (decode w).isNone) = true := by decide

/-- The encoder's words, written out from R112. -/
theorem test_encode : encode (.drw 0x1 0x2 0x5) = 0xD125 ∧ encode (.shr 0x1) = 0x8106 ∧ encode (.jp 0xABC) = 0x1ABC ∧
    encode (.sknp 0x5) = 0xE5A1 ∧ encodeBytes (.ldImm 0xA 0x05) = [0x6A, 0x05] := by decide

/-- A truncated instruction and an Unsupported word are rejected by name, and what follows an instruction is left. -/
theorem test_decode_bytes : decodeBytes [0x60] = .error .truncated ∧
    decodeBytes [0x01, 0x23] = .error (.unsupported 0x0123) ∧
    decodeBytes [0x6A, 0x05, 0x12] = .ok (.ldImm 0xA 0x05, [0x12]) := by
  refine ⟨rfl, rfl, rfl⟩

/-- The host's numbering: the most significant nibble is the opcode. -/
theorem test_decode_table_word : decodeTableWord 16 0x6A05 = some (.ldImm 0xA 0x05) ∧
    decodeTableWord 16 0x0123 = none := by decide

/-! ## The first steps (P0, 2.1) -/

/-- P0: its first word is the first instruction after reset. -/
theorem test_first_step : (run 0x6005 State.reset).map (fun t => (t.reg 0x0, t.pc, t.status)) =
    some (0x05, 0x202, .running) := by decide

/-- DE1: the first step of a reset machine with nothing loaded. -/
theorem test_reset_step_faults : fault? (step State.reset) = some (.unsupported 0x200 0x0000) := by decide

/-- DE2. -/
theorem test_legacy_call_faults : runFault 0x0123 State.reset = some (.unsupported 0x200 0x0123) := by decide

/-- DE6: the last instruction of memory. -/
theorem test_fetch_at_the_top : (run 0x6A01 { State.reset with pc := 0xFFE }).map (fun t => (t.reg 0xA, t.pc)) =
    some (0x01, 0x1000) := by decide

/-- DE7, DE8. -/
theorem test_fetch_past_the_top :
    fault? (step { State.reset with pc := 0x1000 }) = some (.outOfRange 0x1000 0x1000) ∧
    fault? (step { State.reset with pc := 0xFFF }) = some (.outOfRange 0xFFF 0x1000) := by decide

/-- DE9: an odd PC. -/
theorem test_odd_pc : (run 0x6A07 { State.reset with pc := 0x201 }).map (fun t => (t.reg 0xA, t.pc)) =
    some (0x07, 0x203) := by decide

/-! ## Control flow (2.2) -/

/-- CF1, CF2. -/
theorem test_ret :
    (run 0x00EE { machine [] [(0x152, 0x02), (0x153, 0x04)] with sp := 0x152 }).map (fun t => (t.pc, t.sp)) =
      some (0x204, 0x150) ∧
    (run 0x00EE State.reset).map (fun t => (t.pc, t.sp)) = some (0x0000, 0x14E) := by decide

/-- CF3, CF4. -/
theorem test_ret_at_the_top :
    runFault 0x00EE { State.reset with sp := 0xFFF, pc := 0x300 } = some (.outOfRange 0x300 0x1000) ∧
    (run 0x00EE { machine [] [(0xFFE, 0x03), (0xFFF, 0x00)] with sp := 0xFFE }).map (fun t => (t.pc, t.sp)) =
      some (0x300, 0xFFC) := by decide

/-- CF5, CF6. -/
theorem test_jp : (run 0x1ABC State.reset).map (·.pc) = some 0xABC ∧ (run 0x1FFF State.reset).map (·.pc) = some 0xFFF := by
  decide

/-- CF7, CF8. -/
theorem test_call :
    (run 0x2300 State.reset).map (fun t => (t.mem.read 0x152, t.mem.read 0x153, t.sp, t.pc)) =
      some (0x02, 0x02, 0x152, 0x300) ∧
    (run 0x2400 { State.reset with pc := 0x300, sp := 0xFFC }).map
      (fun t => (t.mem.read 0xFFE, t.mem.read 0xFFF, t.sp, t.pc)) = some (0x03, 0x02, 0xFFE, 0x400) := by decide

/-- CF9, CF10. -/
theorem test_call_past_the_top :
    runFault 0x2400 { State.reset with pc := 0x300, sp := 0xFFD } = some (.outOfRange 0x300 0x1000) ∧
    runFault 0x2400 { State.reset with pc := 0x300, sp := 0xFFE } = some (.outOfRange 0x300 0x1000) := by decide

/-- CF12, CF13. -/
theorem test_jp_v0 : (run 0xBFFF (machine [(0x0, 0xFF)] [])).map (·.pc) = some 0x10FE ∧
    (run 0xB123 (machine [(0x0, 0x01), (0x1, 0x50)] [])).map (·.pc) = some 0x124 := by decide

/-! ## Skips (2.3) -/

/-- SK1, SK2. -/
theorem test_se_imm : (run 0x3342 (machine [(0x3, 0x42)] [])).map (·.pc) = some 0x204 ∧
    (run 0x3342 (machine [(0x3, 0x41)] [])).map (·.pc) = some 0x202 := by decide

/-- SK3, SK4. -/
theorem test_sne_imm : (run 0x4342 (machine [(0x3, 0x42)] [])).map (·.pc) = some 0x202 ∧
    (run 0x4342 (machine [(0x3, 0x00)] [])).map (·.pc) = some 0x204 := by decide

/-- SK5. -/
theorem test_se_reg : (run 0x5110 (machine [(0x1, 0x07)] [])).map (·.pc) = some 0x204 := by decide

/-- SK6, SK7. -/
theorem test_sne_reg : (run 0x9110 (machine [(0x1, 0x07)] [])).map (·.pc) = some 0x202 ∧
    (run 0x9120 (machine [(0x1, 0x07), (0x2, 0x08)] [])).map (·.pc) = some 0x204 := by decide

/-- SK9, SK10. -/
theorem test_skp : (run 0xE59E { machine [(0x5, 0x0A)] [] with key := 0xA }).map (·.pc) = some 0x204 ∧
    (run 0xE59E { machine [(0x5, 0x1A)] [] with key := 0xA }).map (·.pc) = some 0x202 := by decide

/-- SK11, SK12. -/
theorem test_sknp : (run 0xE0A1 (machine [(0x0, 0x10)] [])).map (·.pc) = some 0x204 ∧
    (run 0xE0A1 (machine [(0x0, 0x00)] [])).map (·.pc) = some 0x202 := by decide

/-- SK13: the skipped word is not decoded. -/
theorem test_skip_over_unsupported :
    (run 0x3000 (machine [] [(0x202, 0x01), (0x203, 0x23)])).map (·.pc) = some 0x204 := by decide

/-! ## Arithmetic and logic (2.4) -/

/-- AL2, AL3. -/
theorem test_add_imm :
    (run 0x7201 (machine [(0x2, 0xFF), (0xF, 0x77)] [])).map (fun t => (t.reg 0x2, t.reg 0xF)) = some (0x00, 0x77) ∧
    (run 0x7F03 (machine [(0xF, 0xFE)] [])).map (·.reg 0xF) = some 0x01 := by decide

/-- AL4. -/
theorem test_ld_reg : (run 0x8010 (machine [(0x1, 0x33)] [])).map (·.reg 0x0) = some 0x33 := by decide

/-- AL5. -/
theorem test_or : (run 0x8011 (machine [(0x0, 0x0C), (0x1, 0x0A), (0xF, 0x55)] [])).map
    (fun t => (t.reg 0x0, t.reg 0xF)) = some (0x0E, 0x55) := by decide

/-- AL6. -/
theorem test_and : (run 0x8012 (machine [(0x0, 0x0C), (0x1, 0x0A)] [])).map (·.reg 0x0) = some 0x08 := by decide

/-- AL7, AL8. -/
theorem test_xor : (run 0x8013 (machine [(0x0, 0x0C), (0x1, 0x0A)] [])).map (·.reg 0x0) = some 0x06 ∧
    (run 0x8443 (machine [(0x4, 0x9C)] [])).map (·.reg 0x4) = some 0x00 := by decide

/-- AL9, AL10. -/
theorem test_add :
    (run 0x8014 (machine [(0x0, 0xFF), (0x1, 0x02)] [])).map (fun t => (t.reg 0x0, t.reg 0xF)) = some (0x01, 1) ∧
    (run 0x8014 (machine [(0x0, 0x80), (0x1, 0x7F)] [])).map (fun t => (t.reg 0x0, t.reg 0xF)) = some (0xFF, 0) := by
  decide

/-- AL13, AL14: VF as the destination, and as a source. -/
theorem test_add_vf : (run 0x8F14 (machine [(0xF, 0x10), (0x1, 0xF5)] [])).map (·.reg 0xF) = some 1 ∧
    (run 0x80F4 (machine [(0x0, 0x01), (0xF, 0x01)] [])).map (fun t => (t.reg 0x0, t.reg 0xF)) = some (0x02, 0) := by
  decide

/-- AL15, AL16, AL17. -/
theorem test_sub :
    (run 0x8015 (machine [(0x0, 0x05), (0x1, 0x03)] [])).map (fun t => (t.reg 0x0, t.reg 0xF)) = some (0x02, 1) ∧
    (run 0x8015 (machine [(0x0, 0x03), (0x1, 0x03)] [])).map (fun t => (t.reg 0x0, t.reg 0xF)) = some (0x00, 0) ∧
    (run 0x8015 (machine [(0x0, 0x00), (0x1, 0x01)] [])).map (fun t => (t.reg 0x0, t.reg 0xF)) = some (0xFF, 0) := by
  decide

/-- AL18. -/
theorem test_sub_vf : (run 0x8F15 (machine [(0xF, 0x05), (0x1, 0x03)] [])).map (·.reg 0xF) = some 1 := by decide

/-- AL19, AL21. -/
theorem test_shr :
    (run 0x8306 (machine [(0x3, 0x05)] [])).map (fun t => (t.reg 0x3, t.reg 0xF)) = some (0x02, 1) ∧
    (run 0x8316 (machine [(0x3, 0x04), (0x1, 0xFF)] [])).map (fun t => (t.reg 0x3, t.reg 0xF, t.reg 0x1)) =
      some (0x02, 0, 0xFF) := by decide

/-- AL22. -/
theorem test_shr_vf : (run 0x8F06 (machine [(0xF, 0x03)] [])).map (·.reg 0xF) = some 1 := by decide

/-- AL23, AL24, AL25. -/
theorem test_subn :
    (run 0x8017 (machine [(0x0, 0x03), (0x1, 0x05)] [])).map (fun t => (t.reg 0x0, t.reg 0xF)) = some (0x02, 1) ∧
    (run 0x8017 (machine [(0x0, 0x05), (0x1, 0x03)] [])).map (fun t => (t.reg 0x0, t.reg 0xF)) = some (0xFE, 0) ∧
    (run 0x8017 (machine [(0x0, 0x07), (0x1, 0x07)] [])).map (fun t => (t.reg 0x0, t.reg 0xF)) = some (0x00, 0) := by
  decide

/-- AL26, AL27. -/
theorem test_shl :
    (run 0x830E (machine [(0x3, 0x81)] [])).map (fun t => (t.reg 0x3, t.reg 0xF)) = some (0x02, 1) ∧
    (run 0x830E (machine [(0x3, 0x40)] [])).map (fun t => (t.reg 0x3, t.reg 0xF)) = some (0x80, 0) := by decide

/-- AL28. -/
theorem test_shl_vf : (run 0x8F0E (machine [(0xF, 0x80)] [])).map (·.reg 0xF) = some 1 := by decide

/-- AL29: the low nibble of whatever byte is drawn. -/
theorem test_rnd_mask : (run 0xC40F State.reset).map (fun t => (t.reg 0x4, t.draws)) =
    some (Config.rand 0 &&& 0x0F, 1) := rfl

/-- AL30: no bit of the draw is let through. -/
theorem test_rnd_zero_mask : ∃ t, exec (.rnd 0x4 0x00) State.reset = .next t ∧ t.reg 0x4 = 0x00 :=
  ⟨_, rfl, BitVec.and_zero⟩

/-! ## Index register and memory (2.5) -/

/-- IM1. -/
theorem test_ld_i : (run 0xA2F0 State.reset).map (·.index) = some 0x2F0 := by decide

/-- IM2, IM3. -/
theorem test_add_i :
    (run 0xF21E { machine [(0x2, 0x20)] [] with index := 0xFF0 }).map (fun t => (t.index, t.reg 0xF)) =
      some (0x010, 0x00) ∧
    (run 0xF01E { machine [(0x0, 0x01)] [] with index := 0xFFF }).map (·.index) = some 0x000 := by decide

/-- IM4, IM5, IM6. -/
theorem test_ld_f : (run 0xF729 (machine [(0x7, 0x0A)] [])).map (·.index) = some 0x032 ∧
    (run 0xF729 (machine [(0x7, 0x0F)] [])).map (·.index) = some 0x04B ∧
    (run 0xF729 (machine [(0x7, 0xFF)] [])).map (·.index) = some 0x4FB := by decide

/-- IM7, IM8: 255, and 123 in the last three bytes. -/
theorem test_ld_b :
    (run 0xF133 { machine [(0x1, 255)] [] with index := 0x300 }).map
      (fun t => (t.mem.read 0x300, t.mem.read 0x301, t.mem.read 0x302, t.index)) = some (2, 5, 5, 0x300) ∧
    (run 0xF133 { machine [(0x1, 0x7B)] [] with index := 0xFFD }).map
      (fun t => (t.mem.read 0xFFD, t.mem.read 0xFFE, t.mem.read 0xFFF)) = some (1, 2, 3) := by decide

/-- IM9. -/
theorem test_ld_b_past_the_top :
    runFault 0xF133 { State.reset with pc := 0x300, index := 0xFFE } = some (.outOfRange 0x300 0x1000) := by decide

/-- IM10, IM13. -/
theorem test_store_regs :
    (run 0xF155 { machine [(0x0, 0x11), (0x1, 0x22)] [] with index := 0x300 }).map
      (fun t => (t.mem.read 0x300, t.mem.read 0x301, t.mem.read 0x302, t.index)) = some (0x11, 0x22, 0x00, 0x300) ∧
    (run 0xF055 (machine [(0x0, 0xAA)] [])).map (·.mem.read 0x000) = some 0xAA := by decide

/-- IM12. -/
theorem test_store_regs_past_the_top :
    runFault 0xFF55 { State.reset with pc := 0x300, index := 0xFF1 } = some (.outOfRange 0x300 0x1000) := by decide

/-- IM14, IM15. -/
theorem test_load_regs :
    (run 0xF265 { machine [] [(0x300, 1), (0x301, 2), (0x302, 3), (0x303, 4)] with index := 0x300 }).map
      (fun t => (t.reg 0x0, t.reg 0x1, t.reg 0x2, t.reg 0x3, t.index)) = some (1, 2, 3, 0, 0x300) ∧
    (run 0xFF65 { machine [] [(0x30F, 0x99)] with index := 0x300 }).map (·.reg 0xF) = some 0x99 := by decide

/-- IM16, IM17. -/
theorem test_load_regs_at_the_top :
    (run 0xF065 { machine [] [(0xFFF, 0x42)] with index := 0xFFF }).map (·.reg 0x0) = some 0x42 ∧
    runFault 0xF165 { State.reset with pc := 0x300, index := 0xFFF } = some (.outOfRange 0x300 0x1000) := by decide

/-! ## Display (2.6) -/

/-- DR1. -/
theorem test_cls : (run 0x00E0 (machine [] [(0x04F, 0x11), (0x050, 0xFF), (0x14F, 0xFF), (0x150, 0x22)])).map
    (fun t => (t.mem.read 0x04F, t.mem.read 0x050, t.mem.read 0x14F, t.mem.read 0x150, t.pc)) =
      some (0x11, 0x00, 0x00, 0x22, 0x202) := by decide +kernel

/-- DR2: glyph 0 of the default FONT. -/
theorem test_drw_glyph : (run 0xD015 State.reset).map
    (fun t => (t.mem.read 0x050, t.mem.read 0x058, t.mem.read 0x060, t.mem.read 0x068, t.mem.read 0x070, t.reg 0xF)) =
      some (0xF0, 0x90, 0x90, 0x90, 0xF0, 0) := by decide +kernel

/-- DR4: the origin wraps. -/
theorem test_drw_origin_wraps :
    (run 0xD011 { machine [(0x0, 0x44), (0x1, 0x21)] [(0x300, 0xFF)] with index := 0x300 }).map
      (fun t => (t.mem.read 0x058, t.mem.read 0x059, t.reg 0xF)) = some (0x0F, 0xF0, 0) := by decide +kernel

/-- DR5: the columns past 63 are clipped. -/
theorem test_drw_clips_columns : (run 0xD011 { machine [(0x0, 0x3C)] [(0x300, 0xFF)] with index := 0x300 }).map
    (fun t => (t.mem.read 0x057, t.mem.read 0x050, t.mem.read 0x058, t.reg 0xF)) = some (0x0F, 0x00, 0x00, 0) := by
  decide +kernel

/-- DR6: the rows past 31 are clipped. -/
theorem test_drw_clips_rows :
    (run 0xD014 { machine [(0x1, 0x1E)] [(0x300, 0x80), (0x301, 0x80), (0x302, 0x80), (0x303, 0x80)] with
      index := 0x300 }).map (fun t => (t.mem.read 0x140, t.mem.read 0x148, t.mem.read 0x150, t.mem.read 0x050, t.reg 0xF)) =
      some (0x80, 0x80, 0x00, 0x00, 0) := by decide +kernel

/-- DR7: N = 0 draws nothing and clears VF. -/
theorem test_drw_no_rows : (run 0xD010 (machine [(0xF, 1)] [])).map (fun t => (t.mem.read 0x050, t.reg 0xF)) =
    some (0x00, 0) := by decide

/-- DR8, DR9. -/
theorem test_drw_collision :
    (run 0xD011 { machine [] [(0x050, 0x80), (0x300, 0x80)] with index := 0x300 }).map
      (fun t => (t.mem.read 0x050, t.reg 0xF)) = some (0x00, 1) ∧
    (run 0xD011 { machine [] [(0x050, 0x80), (0x300, 0x40)] with index := 0x300 }).map
      (fun t => (t.mem.read 0x050, t.reg 0xF)) = some (0xC0, 0) := by decide +kernel

/-- DR10, DR12: the range check, of a clipped row too. -/
theorem test_drw_past_the_top :
    runFault 0xD013 { State.reset with pc := 0x300, index := 0xFFE } = some (.outOfRange 0x300 0x1000) ∧
    runFault 0xD012 { machine [(0x1, 0x1F)] [] with pc := 0x300, index := 0xFFF } =
      some (.outOfRange 0x300 0x1000) := by decide

/-- DR11: the last two bytes of memory. -/
theorem test_drw_at_the_top : (run 0xD012 { State.reset with index := 0xFFE }).map (fun t => (t.pc, t.reg 0xF)) =
    some (0x202, 0) := by decide +kernel

/-- DR13: the coordinate in VF is read before the flag is written. -/
theorem test_drw_vf_coordinate :
    (run 0xDF11 { machine [(0xF, 0x3C)] [(0x300, 0xF0)] with index := 0x300 }).map
      (fun t => (t.mem.read 0x057, t.reg 0xF)) = some (0x0F, 0) := by decide +kernel

/-- DR14: the pixels of row 0 are 1010, those of row 1 are 0110. -/
theorem test_view_cells :
    let m := (machine [] [(0x050, 0xA0), (0x058, 0x60)]).mem
    (viewCell m 0 0, viewCell m 1 0, viewCell m 2 0, viewCell m 3 0) = (.upperHalf, .lowerHalf, .full, .blank) := by
  decide

/-- The characters of R256's table, from the spec's general knowledge (log entry 15). -/
theorem test_glyph_characters : (glyphOf false false).codePoint = 0x0020 ∧ (glyphOf false true).codePoint = 0x2584 ∧
    (glyphOf true false).codePoint = 0x2580 ∧ (glyphOf true true).codePoint = 0x2588 := by decide

/-! ## Timers, keys and the host's events (2.7, 2.8) -/

/-- TK1: the three steps of it. -/
theorem test_delay_timer : (run 0xF315 (machine [(0x3, 0x3C)] [])).map (·.dt) = some 0x3C ∧
    ({ State.reset with dt := 0x3C }.tick).dt = 0x3B ∧
    (run 0xF407 { State.reset with dt := 0x3B }).map (·.reg 0x4) = some 0x3B := by decide

/-- TK2: clamped at 0. -/
theorem test_tick : (next? (step { State.reset with st := 1, hostEvents := [.tick] })).map
    (fun t => (t.dt, t.st, t.pc)) = some (0, 0, 0x200) := by decide

/-- TK3. -/
theorem test_ld_st : (run 0xF318 (machine [(0x3, 0x05)] [])).map (·.st) = some 0x05 := by decide

/-- TK4, TK7: KEY is not consulted. -/
theorem test_ld_k : (run 0xF20A { machine [(0x2, 0x66)] [] with key := 5 }).map (fun t => (t.status, t.pc, t.reg 0x2)) =
    some (.blocked 0x2, 0x200, 0x66) := by decide

/-- A machine that waits for V2, as TK5 to TK8 have it. -/
def waiting : State := { machine [] [(0x200, 0xF2), (0x201, 0x0A)] with status := .blocked 0x2, dt := 9, loadable := false }

/-- TK5: an unmapped byte. -/
theorem test_unmapped_byte_keeps_waiting : waiting.offerKey 0x2 none = waiting := rfl

/-- TK6: a byte mapped to key 7. -/
theorem test_mapped_byte_ends_wait :
    let t := waiting.offerKey 0x2 (some 7)
    (t.reg 0x2, t.pc, t.status, t.key) = (0x07, 0x202, .running, 0) := by decide

/-- TK8: no Tick, Step or SetKey while Blocked. -/
theorem test_no_work_while_blocked :
    next? (perform .tick waiting) = some waiting ∧ next? (perform .step waiting) = some waiting ∧
    next? (perform (.setKey 3) waiting) = some waiting := by decide

/-- TK9. -/
theorem test_set_key : (next? (step { State.reset with hostEvents := [.setKey 0xC] })).map (·.key) = some 0xC := by decide

/-- The first bytes of P0 loaded. -/
theorem test_load : (next? (step { State.reset with hostEvents := [.load [0x60, 0x05]] })).map
    (fun t => (t.mem.read 0x200, t.mem.read 0x201, t.pc, t.loadable)) = some (0x60, 0x05, 0x200, false) := by decide

/-- A program of n bytes that does not fit is refused. -/
theorem load_replicate (n : Nat) (h : 3584 < n) :
    step { State.reset with hostEvents := [.load (List.replicate n 0)] } = .refused (.loadTooLarge n) := by
  have hf : programFits (List.replicate n 0) = false := by rw [programFits_replicate]; simp; omega
  have : State.load { State.reset with hostEvents := [] } (List.replicate n 0) = .refused (.loadTooLarge n) := by
    rw [State.load, hf, List.length_replicate]; rfl
  exact this

/-- LD2: no run. -/
theorem test_load_too_large :
    step { State.reset with hostEvents := [.load (List.replicate 3585 0)] } = .refused (.loadTooLarge 3585) :=
  load_replicate 3585 (by decide)

/-- LD3: after an empty Load the first step faults. -/
theorem test_load_nothing : fault? (step { State.reset with loadable := false }) = some (.unsupported 0x200 0x0000) := by
  decide

/-- R306: the report of the fault of DE2, an offset from the load base. -/
theorem test_report_offset : Fault.reportOffset (.unsupported 0x206 0x0000) = some 6 ∧
    Fault.reportOffset (.outOfRange 0x1FE 0x1000) = none := by decide

/-! ## Witnesses: the hypotheses of the statements can be met -/

/-- EncodeOfDecode: both clauses. -/
theorem witness_EncodeOfDecode : decode 0x8014 = some (.addReg 0x0 0x1) ∧ encode (.addReg 0x0 0x1) = 0x8014 ∧
    decode 0x8126 = some (.shr 0x1) ∧ encode (.shr 0x1) = 0x8126 &&& 0xFF0F ∧ encode (.shr 0x1) ≠ 0x8126 := by decide

/-- DecodeAgreesWithTable: a word that decodes, a row and a word that selects it. -/
theorem witness_DecodeAgreesWithTable : decode 0xD125 = some (.drw 0x1 0x2 0x5) ∧
    rowOf (.drw 0x1 0x2 0x5) ∈ opcodeTable ∧ (rowOf (.drw 0x1 0x2 0x5)).selects 0xD125 = true := by decide

/-- UnsupportedSpace: a word for each clause, and words just outside. -/
theorem witness_UnsupportedSpace : decode 0x00E1 = none ∧ decode 0x5121 = none ∧ decode 0x9121 = none ∧
    decode 0x8128 = none ∧ decode 0xE19F = none ∧ decode 0xF100 = none ∧ (decode 0x00E0).isSome = true ∧
    (decode 0x812E).isSome = true ∧ (decode 0xE19E).isSome = true ∧ (decode 0xF165).isSome = true := by decide

/-- A machine at the last PC that can be fetched, with the word of DE6 there. -/
def lastWord : State := { machine [] [(0xFFE, 0x6A), (0xFFF, 0x01)] with pc := 0xFFE }

/-- StepRunsDecodedInstruction: with no event listed and with a Step listed. -/
theorem witness_StepRunsDecodedInstruction : lastWord.status = .running ∧ lastWord.pc.toNat < 0xFFF ∧
    decode lastWord.wordAtPc = some (.ldImm 0xA 0x01) ∧ lastWord.hostEvents = [] ∧
    ({ lastWord with hostEvents := [.step, .tick] } : State).hostEvents = .step :: [.tick] := by decide

/-- StepFaultsBeforeExecution: each of its three clauses. -/
theorem witness_StepFaultsBeforeExecution : State.reset.status = .running ∧ State.reset.nextEvent = .step ∧
    0xFFF < (0x1000 : Word).toNat ∧ (0xFFF : Word).toNat = 0xFFF ∧
    ({ State.reset with pc := 0xFFE } : State).pc.toNat < 0xFFF ∧
    decode ({ State.reset with pc := 0xFFE } : State).wordAtPc = none := by decide

/-- ExecFaultsExactly: at the last place without a fault and the first with one, for every kind of access. -/
theorem witness_ExecFaultsExactly :
    faultAddress .ret { State.reset with sp := 0xFFE } = none ∧
    faultAddress .ret { State.reset with sp := 0xFFF } = some 0x1000 ∧
    faultAddress .ret { State.reset with sp := 0x1000 } = some 0x1000 ∧
    faultAddress (.call 0x300) { State.reset with sp := 0xFFC } = none ∧
    faultAddress (.call 0x300) { State.reset with sp := 0xFFFD } = some 0xFFFF ∧
    faultAddress (.call 0x300) { State.reset with sp := 0xFFFE } = none ∧
    faultAddress (.drw 0 1 2) { State.reset with index := 0xFFE } = none ∧
    faultAddress (.drw 0 1 2) { State.reset with index := 0xFFF } = some 0x1000 ∧
    faultAddress (.drw 0 1 0) { State.reset with index := 0xFFF } = none ∧
    faultAddress (.ldB 0) { State.reset with index := 0xFFD } = none ∧
    faultAddress (.ldB 0) { State.reset with index := 0xFFE } = some 0x1000 ∧
    faultAddress (.storeRegs 0xF) { State.reset with index := 0xFF0 } = none ∧
    faultAddress (.loadRegs 0xF) { State.reset with index := 0xFF1 } = some 0x1000 := by decide

/-- The stack at its edges does what its faults say: at the wrap of SP a call pushes at 0x0000. -/
theorem test_call_wraps_sp : (run 0x2300 { State.reset with sp := 0xFFFE }).map
    (fun t => (t.mem.read 0x000, t.mem.read 0x001, t.sp)) = some (0x02, 0x02, 0x0000) ∧
    runFault 0x2300 { State.reset with sp := 0xFFFD } = some (.outOfRange 0x200 0xFFFF) := by decide

/-- FaultIsPrecise: a running machine whose step faults. -/
theorem witness_FaultIsPrecise : step State.reset = .fault (.unsupported 0x200 0x0000) ∧
    State.reset.status = .running := ⟨rfl, rfl⟩

/-- FaultedIsFinal: a faulted machine. -/
theorem witness_FaultedIsFinal :
    (State.reset.recordFault (.unsupported 0x200 0x0000)).status = .faulted (.unsupported 0x200 0x0000) := rfl

/-- The encoding clauses of the statements about one instruction: a word that meets each mask. -/
theorem witness_encoding_clauses_opcode :
    (0x1ABC : Word) &&& 0xF000 = 0x1000 ∧ (0x2DEF : Word) &&& 0xF000 = 0x2000 ∧ (0x3342 : Word) &&& 0xF000 = 0x3000 ∧
    (0x4F81 : Word) &&& 0xF000 = 0x4000 ∧ (0x6A05 : Word) &&& 0xF000 = 0x6000 ∧ (0x72FE : Word) &&& 0xF000 = 0x7000 ∧
    (0xA2F0 : Word) &&& 0xF000 = 0xA000 ∧ (0xB123 : Word) &&& 0xF000 = 0xB000 ∧ (0xC40F : Word) &&& 0xF000 = 0xC000 ∧
    (0xD125 : Word) &&& 0xF000 = 0xD000 := by decide

theorem witness_encoding_clauses_n :
    (0x5120 : Word) &&& 0xF00F = 0x5000 ∧ (0x8120 : Word) &&& 0xF00F = 0x8000 ∧ (0x8121 : Word) &&& 0xF00F = 0x8001 ∧
    (0x8122 : Word) &&& 0xF00F = 0x8002 ∧ (0x8123 : Word) &&& 0xF00F = 0x8003 ∧ (0x8124 : Word) &&& 0xF00F = 0x8004 ∧
    (0x8125 : Word) &&& 0xF00F = 0x8005 ∧ (0x8126 : Word) &&& 0xF00F = 0x8006 ∧ (0x8127 : Word) &&& 0xF00F = 0x8007 ∧
    (0x81FE : Word) &&& 0xF00F = 0x800E ∧ (0x9AB0 : Word) &&& 0xF00F = 0x9000 ∧
    fieldOp 0x5121 = 0x5 ∧ fieldN 0x5121 ≠ 0 := by decide

theorem witness_encoding_clauses_nn :
    (0xE59E : Word) &&& 0xF0FF = 0xE09E ∧ (0xE0A1 : Word) &&& 0xF0FF = 0xE0A1 ∧ (0xF407 : Word) &&& 0xF0FF = 0xF007 ∧
    (0xF20A : Word) &&& 0xF0FF = 0xF00A ∧ (0xF315 : Word) &&& 0xF0FF = 0xF015 ∧ (0xF618 : Word) &&& 0xF0FF = 0xF018 ∧
    (0xF21E : Word) &&& 0xF0FF = 0xF01E ∧ (0xF729 : Word) &&& 0xF0FF = 0xF029 ∧ (0xF133 : Word) &&& 0xF0FF = 0xF033 ∧
    (0xF555 : Word) &&& 0xF0FF = 0xF055 ∧ (0xF265 : Word) &&& 0xF0FF = 0xF065 := by decide

/-- AddImmediate, AddWithCarryOut, SubtractStrictFlag, ShiftsIgnoreY: a destination that is VF and one that is not;
RandomByteUnderMask: a mask of zero; JumpToAddress: a jump to itself. -/
theorem witness_operand_cases : (0x2 : Nibble) ≠ 0xF ∧ (0x00 : Byte) = 0 ∧
    State.reset.pc.toNat = (0x200 : Addr).toNat := by decide

/-- JumpToAddress, JumpWithOffset: a target that cannot be fetched, by CF6 and CF12. -/
theorem witness_unfetchable_target : (0xFFF : Addr) = 0xFFF ∧
    (run 0xBFFF (machine [(0x0, 0xFF)] [])).map (fun t => decide (0xFFF ≤ t.pc.toNat)) = some true := by decide

/-- SoundTimerIsNotRead: an instruction that faults and one that completes. -/
theorem witness_SoundTimerIsNotRead :
    (fault? (exec .ret { State.reset with sp := 0xFFF })).isSome = true ∧
    (∃ t, exec (.ldStVx 0x3) State.reset = .next t) := ⟨by decide, ⟨_, rfl⟩⟩

/-- CallPushesReturnAddress: the last slot, the one across the top, the first above it. -/
theorem witness_CallPushesReturnAddress :
    ({ State.reset with sp := 0xFFC } : State).pushSlot < 0xFFF ∧
    ({ State.reset with sp := 0xFFD } : State).pushSlot = 0xFFF ∧
    0xFFF < ({ State.reset with sp := 0xFFE } : State).pushSlot := by decide

/-- ReturnPopsAddress: the same three places. -/
theorem witness_ReturnPopsAddress :
    ({ State.reset with sp := 0xFFE } : State).popSlot < 0xFFF ∧
    ({ State.reset with sp := 0xFFF } : State).popSlot = 0xFFF ∧
    0xFFF < ({ State.reset with sp := 0x1000 } : State).popSlot := by decide

/-- ReturnUndoesCall: a call that completes at the last slot, and the state it leaves. -/
theorem witness_ReturnUndoesCall : ∃ t u : State, exec (.call 0x400) { State.reset with sp := 0xFFC } = .next t ∧ u.sp = t.sp ∧
    ∀ k < 2, u.mem.read (({ State.reset with sp := 0xFFC } : State).pushSlot + k) =
      t.mem.read (({ State.reset with sp := 0xFFC } : State).pushSlot + k) := by
  obtain ⟨t, h⟩ := exists_next (r := exec (.call 0x400) { State.reset with sp := 0xFFC }) (by decide)
  exact ⟨t, t, h, rfl, fun _ _ => rfl⟩

/-- StoreDecimalDigits, StoreRegisters, LoadRegisters: the last place inside memory and the first across its top. -/
theorem witness_index_ranges :
    ({ State.reset with index := 0xFFD } : State).indexAddr + 2 ≤ 0xFFF ∧
    0xFFF < ({ State.reset with index := 0xFFE } : State).indexAddr + 2 ∧
    ({ State.reset with index := 0xFF0 } : State).indexAddr + (0xF : Nibble).toNat ≤ 0xFFF ∧
    0xFFF < ({ State.reset with index := 0xFF1 } : State).indexAddr + (0xF : Nibble).toNat := by decide

/-- DrawSprite: no row, the last place inside memory, the first across its top. -/
theorem witness_DrawSprite : (0 : Nibble) = 0 ∧
    ({ State.reset with index := 0xFFE } : State).indexAddr + (2 : Nibble).toNat - 1 ≤ 0xFFF ∧ (2 : Nibble) ≠ 0 ∧
    0xFFF < ({ State.reset with index := 0xFFF } : State).indexAddr + (2 : Nibble).toNat - 1 := by decide

/-- DrawTwiceRestores: a blank screen and a draw of the last glyph below the framebuffer, and of a sprite just above. -/
theorem witness_DrawTwiceRestores : (0 : Nibble) ≠ 0xF ∧ (1 : Nibble) ≠ 0xF ∧
    ({ State.reset with index := 0x04B } : State).index.toNat + (5 : Nibble).toNat ≤ 0x050 ∧
    0x150 ≤ ({ State.reset with index := 0x150 } : State).index.toNat ∧
    (∃ t, exec (.drw 0 1 5) { State.reset with index := 0x04B } = .next t) ∧
    (∃ t, exec (.drw 0 1 5) { State.reset with index := 0x150 } = .next t) ∧
    (∀ px < 64, ∀ py < 32, pixel State.reset.mem px py = false) := by
  refine ⟨by decide, by decide, by decide, by decide, exists_next (by decide +kernel), exists_next (by decide +kernel), ?_⟩
  decide +kernel

/-- SetPixelWritesOnePixel, ViewIsOfFramebuffer: the last pixel, and two memories that differ outside the framebuffer. -/
theorem witness_display : (63 : Nat) < 64 ∧ (31 : Nat) < 32 ∧ (15 : Nat) < 16 ∧
    (∀ a, 0x050 ≤ a → a ≤ 0x14F → Memory.read [(0x300, 1)] a = Memory.read [] a) ∧
    Memory.read [(0x300, 1)] 0x300 ≠ Memory.read [] 0x300 := by
  refine ⟨by decide, by decide, by decide, fun a _ h => ?_, by decide⟩
  exact if_neg (by omega)

/-- RawByteEndsWait, BlockedDoesNoOtherWork: a machine that waits, with a raw byte to come. -/
theorem witness_RawByteEndsWait (b : Byte) : ({ waiting with hostEvents := [.rawByte b] } : State).status = .blocked 0x2 ∧
    ({ waiting with hostEvents := [.rawByte b] } : State).hostEvents = .rawByte b :: [] ∧
    ∀ c, HostEvent.tick ≠ .rawByte c := ⟨rfl, rfl, fun _ h => nomatch h⟩

/-- TickCountsDown, SetKeyWritesKey, StopChangesNothing: a running machine with the event to come. -/
theorem witness_events :
    ({ State.reset with hostEvents := [.tick] } : State).hostEvents = .tick :: [] ∧
    ({ State.reset with hostEvents := [.setKey 3] } : State).hostEvents = .setKey 3 :: [] ∧
    ({ State.reset with hostEvents := [.stop] } : State).hostEvents = .stop :: [] ∧
    State.reset.status = .running ∧ ∀ f, State.reset.status ≠ .faulted f :=
  ⟨rfl, rfl, rfl, rfl, fun _ h => nomatch h⟩

/-- LoadCopiesProgram: the longest program that fits and the shortest that does not. -/
theorem witness_LoadCopiesProgram (bytes : List Byte) : State.reset.status = .running ∧ State.reset.loadable = true ∧
    ({ State.reset with hostEvents := [.load bytes] } : State).hostEvents = .load bytes :: [] ∧
    (List.replicate 3584 (0 : Byte)).length ≤ 3584 ∧ 3584 < (List.replicate 3585 (0 : Byte)).length := by
  refine ⟨rfl, rfl, rfl, ?_, ?_⟩
  · rw [List.length_replicate]
  · rw [List.length_replicate]; decide

/-- LoadOnlyBeforeFirstStep, StepKeepsInvariant, CompletedStepPcRange, and every statement about what an instruction
that completes may write: a step that completes in a state of the invariant, at the last PC, with no Load to come. -/
theorem witness_completed_step : lastWord.Inv ∧ (∃ t, step lastWord = .next t) ∧ (∃ t, executionStep lastWord = .next t) ∧
    decode lastWord.wordAtPc ≠ some .ret ∧ (∃ t, exec (.ldImm 0xA 0x01) lastWord = .next t) := by
  refine ⟨⟨by decide, fun x h => nomatch h⟩, exists_next (by decide), exists_next (by decide), by decide,
    exists_next (by decide)⟩

theorem witness_load_closed : ({ lastWord with loadable := false } : State).loadable = false ∧
    ({ lastWord with loadable := false } : State).status = .running ∧
    ∃ t, step { lastWord with loadable := false } = .next t :=
  ⟨rfl, rfl, exists_next (by decide)⟩

/-- StepKeepsInvariant: a machine that waits meets the invariant too, and steps. -/
theorem witness_waiting_invariant : waiting.Inv ∧ ∃ t, step waiting = .next t := by
  refine ⟨⟨by decide, fun x h => ?_⟩, exists_next (by decide)⟩
  cases h
  exact ⟨rfl, by decide, by decide⟩

/-- ResetMemoryHoldsFont: a font of 80 bytes, its last byte and the first address after it. -/
theorem witness_ResetMemoryHoldsFont : defaultFont.length = 80 ∧ 79 < defaultFont.length ∧ (80 : Nat) ≤ 80 := by decide

/-- FlagIsZeroOrOne: a flag writer that completes, and an instruction that is none and leaves VF. -/
theorem witness_FlagIsZeroOrOne : writesFlag (.addReg 0x0 0x1) = true ∧
    (∃ t, exec (.addReg 0x0 0x1) State.reset = .next t) ∧ writesFlag (.ldImm 0x0 0x05) = false ∧
    (0xF : Nibble) ∉ writtenRegs (.ldImm 0x0 0x05) ∧ (∃ t, exec (.ldImm 0x0 0x05) State.reset = .next t) :=
  ⟨rfl, ⟨_, rfl⟩, rfl, by decide, ⟨_, rfl⟩⟩

/-- NextPc: an instruction of each clause completes. -/
theorem witness_NextPc : (∃ t, exec .ret State.reset = .next t) ∧ (∃ t, exec (.jp 0x300) State.reset = .next t) ∧
    (∃ t, exec (.call 0x300) State.reset = .next t) ∧ (∃ t, exec (.jpV0 0x300) State.reset = .next t) ∧
    (∃ t, exec (.seImm 0x0 0x00) State.reset = .next t) ∧ (∃ t, exec (.ldVxK 0x0) State.reset = .next t) ∧
    (∃ t, exec .cls State.reset = .next t) :=
  ⟨exists_next (by decide), exists_next (by decide), exists_next (by decide), exists_next (by decide),
    exists_next (by decide), exists_next (by decide), exists_next (by decide +kernel)⟩

/-- FetchSeesWrites: the first clause at the last PC it speaks of. -/
theorem witness_fetch_at_the_top : lastWord.mem = lastWord.mem ∧ lastWord.pc.toNat + 1 < 0x1000 := by decide

/-- FetchSeesWrites, 2NNN: a call at the last slot, and a PC there. -/
theorem witness_fetch_after_call : ∃ t u : State, exec (.call 0x400) { State.reset with sp := 0xFFC } = .next t ∧
    u.mem = t.mem ∧ u.pc.toNat = ({ State.reset with sp := 0xFFC } : State).pushSlot := by
  obtain ⟨t, h⟩ := exists_next (r := exec (.call 0x400) { State.reset with sp := 0xFFC }) (by decide)
  exact ⟨t, { t with pc := 0xFFE }, h, rfl, rfl⟩

/-- FetchSeesWrites, FX33: the digits in the last three bytes of memory, and a PC at each place. -/
theorem witness_fetch_after_digits : ∃ t u u' : State, exec (.ldB 0x1) { State.reset with index := 0xFFD } = .next t ∧
    u.mem = t.mem ∧ u.pc.toNat = ({ State.reset with index := 0xFFD } : State).indexAddr ∧
    u'.mem = t.mem ∧ u'.pc.toNat = ({ State.reset with index := 0xFFD } : State).indexAddr + 1 := by
  obtain ⟨t, h⟩ := exists_next (r := exec (.ldB 0x1) { State.reset with index := 0xFFD }) (by decide)
  exact ⟨t, { t with pc := 0xFFD }, { t with pc := 0xFFE }, h, rfl, rfl, rfl, rfl⟩

/-- FetchSeesWrites, FX55 as DE10 has it: V0 = 0x00 and V1 = 0xE0 stored at 0x200, and a PC of 0x200. -/
theorem witness_fetch_after_registers : ∃ t u : State,
    exec (.storeRegs 0x1) { machine [(0x1, 0xE0)] [] with index := 0x200 } = .next t ∧
    (0 : Nibble).toNat < (1 : Nibble).toNat ∧ u.mem = t.mem ∧
    u.pc.toNat = ({ machine [(0x1, 0xE0)] [] with index := 0x200 } : State).indexAddr + (0 : Nibble).toNat := by
  obtain ⟨t, h⟩ := exists_next (r := exec (.storeRegs 0x1) { machine [(0x1, 0xE0)] [] with index := 0x200 }) (by decide)
  exact ⟨t, { t with pc := 0x200 }, h, by decide, rfl, rfl⟩

/-- FetchSeesWrites, 00E0: a PC at the first and at the last word of the framebuffer. -/
theorem witness_fetch_after_clear : ∃ t u : State, exec .cls State.reset = .next t ∧ u.mem = t.mem ∧
    0x050 ≤ u.pc.toNat ∧ u.pc.toNat + 1 ≤ 0x14F ∧ 0x050 ≤ (0x14E : Word).toNat ∧ (0x14E : Word).toNat + 1 ≤ 0x14F := by
  obtain ⟨t, h⟩ := exists_next (r := exec .cls State.reset) (by decide +kernel)
  exact ⟨t, { t with pc := 0x050 }, h, rfl, show 0x050 ≤ (0x050 : Word).toNat ∧ (0x050 : Word).toNat + 1 ≤ 0x14F ∧
    0x050 ≤ (0x14E : Word).toNat ∧ (0x14E : Word).toNat + 1 ≤ 0x14F by decide⟩

/-- FetchSeesWrites, DXYN: the last pixel in the high byte of a word, and in the low byte of one. -/
theorem witness_fetch_after_draw : ∃ t u u' : State, exec (.drw 0x0 0x1 0x5) State.reset = .next t ∧
    u.mem = t.mem ∧ u.pc.toNat = pixelAddr 63 31 ∧ u'.mem = t.mem ∧ u'.pc.toNat + 1 = pixelAddr 63 31 := by
  obtain ⟨t, h⟩ := exists_next (r := exec (.drw 0x0 0x1 0x5) State.reset) (by decide +kernel)
  exact ⟨t, { t with pc := 0x14F }, { t with pc := 0x14E }, h, rfl, rfl, rfl, rfl⟩

/-- FetchSeesWrites, Load: the word of a program of two bytes. -/
theorem witness_fetch_after_load : ∃ t u : State, State.reset.load [0x60, 0x05] = .next t ∧ u.mem = t.mem ∧
    0 + 1 < [0x60, 0x05].length ∧ u.pc.toNat = 0x200 + 0 := by
  obtain ⟨t, h⟩ := exists_next (r := State.reset.load [0x60, 0x05]) (by decide)
  exact ⟨t, { t with pc := 0x200 }, h, rfl, by decide, rfl⟩

/-- IdleEndLoops: a jump to itself at its own address. -/
theorem witness_IdleEndLoops : (machine [] [(0x200, 0x12), (0x201, 0x00)]).idleEnd = true ∧
    (machine [] [(0x200, 0x12), (0x201, 0x00)]).hostEvents = [] := by decide

end Sys2Proof.Tests
end

section
/-!
SUPPORT. The conditional skips of 41_skips.md: how their words decode, what a skip leaves unchanged, where PC goes, and
the statements about them.
-/

namespace Sys2Proof

/-! ## Decoding (R112) -/

theorem decode_seImm {w : Word} (h : w &&& 0xF000 = 0x3000) : decode w = some (.seImm (fieldX w) (fieldNN w)) := by
  have hop : fieldOp w = 0x3 := fieldOp_of_mask h
  rw [decode, hop]; rfl

theorem decode_sneImm {w : Word} (h : w &&& 0xF000 = 0x4000) : decode w = some (.sneImm (fieldX w) (fieldNN w)) := by
  have hop : fieldOp w = 0x4 := fieldOp_of_mask h
  rw [decode, hop]; rfl

/-- Leading nibble E: NN alone selects the form. -/
theorem decode_of_opE {w : Word} (hop : fieldOp w = 0xE) : decode w = decodeKeySkip (fieldX w) (fieldNN w) := by
  rw [decode, hop]; rfl

theorem decode_skp {w : Word} (h : w &&& 0xF0FF = 0xE09E) : decode w = some (.skp (fieldX w)) := by
  obtain ⟨hop, hnn⟩ := fields_of_mask_nn h
  rw [decode_of_opE hop, hnn]; rfl

theorem decode_sknp {w : Word} (h : w &&& 0xF0FF = 0xE0A1) : decode w = some (.sknp (fieldX w)) := by
  obtain ⟨hop, hnn⟩ := fields_of_mask_nn h
  rw [decode_of_opE hop, hnn]; rfl

namespace Machine

/-! ## A skip writes PC alone -/

theorem keepsRegsBut_skipIf (rs : List Nibble) (s : State) (c : Bool) : keepsRegsBut rs s (s.skipIf c) :=
  fun r _ => s.skipIf_reg c r

theorem keepsSpecials_skipIf (s : State) (c : Bool) : keepsSpecials s (s.skipIf c) := by simp [keepsSpecials]

theorem keepsMemory_skipIf (s : State) (c : Bool) : keepsMemory s (s.skipIf c) := fun a => by simp

theorem skipIf_pc_of_iff {s : State} {c : Bool} {p : Prop} [Decidable p] (hc : c = true ↔ p) :
    (s.skipIf c).pc = if p then s.pc + 4 else s.pc + 2 := by
  rw [State.skipIf_pc, if_congr hc rfl rfl, apply_ite (s.pc + ·)]

/-! ## What an instruction that skips does -/

section
variable {i : Instr} {s : State} {c : Bool} {p : Prop} [Decidable p]

/-- An instruction that skips on `p`: the next PC and the frame. -/
theorem exec_skip_if (hexec : exec i s = .next (s.skipIf c)) (hc : c = true ↔ p) :
    ∃ t, exec i s = .next t ∧ t.pc = (if p then s.pc + 4 else s.pc + 2) ∧
      keepsRegsBut [] s t ∧ keepsSpecials s t ∧ keepsMemory s t :=
  ⟨s.skipIf c, hexec, skipIf_pc_of_iff hc, keepsRegsBut_skipIf [] s c, keepsSpecials_skipIf s c, keepsMemory_skipIf s c⟩

/-- An instruction that skips unless `p`: it skips on `¬ p`. -/
theorem exec_skip_unless (hexec : exec i s = .next (s.skipIf c)) (hc : c = true ↔ ¬ p) :
    ∃ t, exec i s = .next t ∧ t.pc = (if p then s.pc + 2 else s.pc + 4) ∧
      keepsRegsBut [] s t ∧ keepsSpecials s t ∧ keepsMemory s t := by
  simpa only [ite_not] using exec_skip_if hexec hc

end

/-! ## KEY widened (R41) -/

@[simp] theorem State.keyByte_toNat (s : State) : s.keyByte.toNat = s.key.toNat :=
  BitVec.toNat_setWidth_of_le (by decide)

/-- A byte is KEY widened when the numbers are the same: 16 or more is no key. -/
theorem State.eq_keyByte_iff (s : State) (b : Byte) : b = s.keyByte ↔ b.toNat = s.key.toNat := by
  rw [← BitVec.toNat_inj, keyByte_toNat]

/-! ## The statements -/

/-- Settles O24: both instructions are `skipIf` on the comparison of V[X] with NN. -/
theorem skipsOnImmediate : Obligations.SkipsOnImmediate := by
  refine ⟨fun _ => decode_seImm, fun _ => decode_sneImm, fun x nn s => ⟨?_, ?_⟩⟩
  · exact exec_skip_if rfl beq_iff_eq
  · exact exec_skip_unless rfl bne_iff_ne

/-- Settles O26: both instructions are `skipIf` on the comparison of V[X] with KEY widened, which is one of numbers. -/
theorem skipsOnKey : Obligations.SkipsOnKey := by
  refine ⟨fun _ => decode_skp, fun _ => decode_sknp, fun x s => ⟨?_, ?_⟩⟩
  · have hc : (s.reg x == s.keyByte) = true ↔ (s.reg x).toNat = s.key.toNat :=
      beq_iff_eq.trans (s.eq_keyByte_iff _)
    exact exec_skip_if rfl hc
  · have hc : (s.reg x != s.keyByte) = true ↔ ¬ (s.reg x).toNat = s.key.toNat :=
      bne_iff_ne.trans (not_congr (s.eq_keyByte_iff _))
    exact exec_skip_unless rfl hc

end Machine

end Sys2Proof
end

section
/-!
SUPPORT. Register arithmetic and logic, 42_arith_logic.md: how its words decode, what an instruction does that writes
V[X] alone or V[X] and a flag, and the statements about them.
-/

namespace Sys2Proof

/-! ## Decoding (R112) -/

theorem decode_ldImm {w : Word} (h : w &&& 0xF000 = 0x6000) : decode w = some (.ldImm (fieldX w) (fieldNN w)) := by
  have hop : fieldOp w = 0x6 := fieldOp_of_mask h
  rw [decode, hop]; rfl

theorem decode_addImm {w : Word} (h : w &&& 0xF000 = 0x7000) : decode w = some (.addImm (fieldX w) (fieldNN w)) := by
  have hop : fieldOp w = 0x7 := fieldOp_of_mask h
  rw [decode, hop]; rfl

/-- Leading nibble 8: with the row's N known, only X and Y are read from the word. -/
theorem decode_of_op8 {w v : Word} (h : w &&& 0xF00F = v) (hv : fieldOp v = 0x8) :
    decode w = decodeEight (fieldX w) (fieldY w) (fieldN v) := by
  obtain ⟨hop, hn⟩ := fields_of_mask_n h
  rw [decode, hop.trans hv, ← hn]; rfl

namespace Machine

/-! ## Flags and differences as numbers (R32, R187-R190) -/

@[simp] theorem flagByte_toNat (c : Bool) : (flagByte c).toNat = c.toNat := by cases c <;> rfl

/-- The bit 8XY6 shifts out is the remainder of the halving (R188). -/
theorem lowBit_toNat (a : Byte) : (lowBit a).toNat = a.toNat % 2 := by
  have hbit : (lowBit a).toNat = a.toNat / 2 ^ 0 % 2 := Nat.toNat_testBit a.toNat 0
  rwa [pow_zero, Nat.div_one] at hbit

/-- The bit 8XYE shifts out is what the doubling carries out of the byte (R190). -/
theorem highBit_toNat (a : Byte) : (highBit a).toNat = a.toNat / 128 := by
  have hbit : (highBit a).toNat = a.toNat / 2 ^ 7 % 2 := Nat.toNat_testBit a.toNat 7
  have ha : a.toNat < 256 := a.isLt
  omega

/-- A difference of bytes is the integer difference modulo 256 (R179). -/
theorem sub_toNat_int (a b : Byte) : ((a - b).toNat : Int) = ((a.toNat : Int) - b.toNat) % 256 := by
  have ha : a.toNat < 256 := a.isLt
  have hb : b.toNat < 256 := b.isLt
  rw [BitVec.toNat_sub]
  omega

/-! ## What an instruction that writes V[X], or V[X] and a flag, does -/

section
variable {i : Instr} {x : Nibble} {s : State} {r : Byte}

/-- An instruction that writes V[X] alone: the result, the next PC and the frame. -/
theorem exec_setReg (hexec : exec i s = .next (s.setReg x r).advance) :
    ∃ t, exec i s = .next t ∧ t.reg x = r ∧ t.pc = s.pc + 2 ∧
      keepsRegsBut [x] s t ∧ keepsSpecials s t ∧ keepsMemory s t := by
  refine ⟨_, hexec, by simp, by simp, fun q hq => ?_, by simp [keepsSpecials], fun _ => by simp⟩
  have hqx : q ≠ x := by simpa using hq
  simp [hqx]

/-- An instruction that writes a result in V[X] and then a flag in VF: the result unless X is F, the flag, the next PC
and the frame. `value` is how the statement reads the result as a number. -/
theorem exec_setResultAndFlag {α : Type} (value : Byte → α) {a : α} {c : Bool} {flag : Nat}
    (hexec : exec i s = .next (s.setResultAndFlag x r c).advance) (hr : value r = a) (hc : c.toNat = flag) :
    ∃ t, exec i s = .next t ∧ (x ≠ 0xF → value (t.reg x) = a) ∧ (t.reg 0xF).toNat = flag ∧ t.pc = s.pc + 2 ∧
      keepsRegsBut [x, 0xF] s t ∧ keepsSpecials s t ∧ keepsMemory s t := by
  refine ⟨_, hexec, fun hx => ?_, ?_, by simp, fun q hq => ?_, by simp [keepsSpecials], fun _ => by simp⟩
  · have hxf : x ≠ flagReg := hx
    simp [hxf, hr]
  · simp [flagReg, hc]
  · obtain ⟨hqx, hqf⟩ : q ≠ x ∧ q ≠ flagReg := by simpa [flagReg] using hq
    simp [hqx, hqf]

end

/-! ## The statements -/

/-- Settles O11: 6XNN is `setReg` of NN. -/
theorem loadImmediate : Obligations.LoadImmediate :=
  ⟨fun _ => decode_ldImm, fun _ _ _ => exec_setReg rfl⟩

/-- Settles O12: 7XNN is `setReg` of the sum and nothing else, so VF is kept by the frame unless it is V[X]. -/
theorem addImmediate : Obligations.AddImmediate := by
  refine ⟨fun _ => decode_addImm, fun x nn s => ?_⟩
  obtain ⟨t, ht, hx, hpc, hregs, hframe⟩ := exec_setReg (i := .addImm x nn) (s := s) rfl
  have hsum : (t.reg x).toNat = ((s.reg x).toNat + nn.toNat) % 256 := by rw [hx, BitVec.toNat_add]
  have hflag : x ≠ 0xF → t.reg 0xF = s.reg 0xF := fun hne => hregs 0xF (by simpa using hne.symm)
  exact ⟨t, ht, hsum, hflag, hpc, hregs, hframe⟩

/-- Settles O13: 8XY0 is `setReg` of V[Y]. -/
theorem copyRegister : Obligations.CopyRegister :=
  ⟨fun _ h => decode_of_op8 h rfl, fun _ _ _ => exec_setReg rfl⟩

/-- Settles O15: the byte sum is the sum modulo 256, and the carry is the comparison of the sum with 255. -/
theorem addWithCarryOut : Obligations.AddWithCarryOut :=
  ⟨fun _ h => decode_of_op8 h rfl, fun _ _ _ =>
    exec_setResultAndFlag BitVec.toNat rfl (BitVec.toNat_add _ _) (Bool.cond_decide _ 1 0)⟩

/-- Settles O16: both are a byte difference, with the strict comparison of the same two operands as the flag. -/
theorem subtractStrictFlag : Obligations.SubtractStrictFlag := by
  refine ⟨fun _ h => decode_of_op8 h rfl, fun _ h => decode_of_op8 h rfl, fun x y s => ⟨?_, ?_⟩⟩
  · exact exec_setResultAndFlag (fun b => (b.toNat : Int)) rfl (sub_toNat_int _ _) (Bool.cond_decide _ 1 0)
  · exact exec_setResultAndFlag (fun b => (b.toNat : Int)) rfl (sub_toNat_int _ _) (Bool.cond_decide _ 1 0)

/-- Settles O17: N alone selects the form; a shift by one halves or doubles, and the flag is the bit it loses. -/
theorem shiftsIgnoreY : Obligations.ShiftsIgnoreY := by
  refine ⟨fun _ h => decode_of_op8 h rfl, fun _ h => decode_of_op8 h rfl, fun x s => ⟨?_, ?_⟩⟩
  · have hhalf : (s.reg x >>> 1).toNat = (s.reg x).toNat / 2 := by
      rw [BitVec.toNat_ushiftRight, Nat.shiftRight_one]
    exact exec_setResultAndFlag BitVec.toNat rfl hhalf (lowBit_toNat _)
  · have hdouble : (s.reg x <<< 1).toNat = (s.reg x).toNat * 2 % 256 := by
      rw [BitVec.toNat_shiftLeft, Nat.shiftLeft_eq]
    exact exec_setResultAndFlag BitVec.toNat rfl hdouble (highBit_toNat _)

end Machine

end Sys2Proof
end

section
/-!
SUPPORT. The index register, 43_index_memory.md: how its words decode, what an instruction does that writes I alone, the
values written as numbers, and the statements about them.
-/

namespace Sys2Proof

/-! ## Decoding (R112) -/

theorem decode_ldI {w : Word} (h : w &&& 0xF000 = 0xA000) : decode w = some (.ldI (fieldNNN w)) := by
  have hop : fieldOp w = 0xA := fieldOp_of_mask h
  rw [decode, hop]; rfl

/-- Leading nibble F: with the row's NN known, only X is read from the word. -/
theorem decode_of_opF {w v : Word} (h : w &&& 0xF0FF = v) (hv : fieldOp v = 0xF) :
    decode w = decodeMisc (fieldX w) (fieldNN v) := by
  obtain ⟨hop, hnn⟩ := fields_of_mask_nn h
  rw [decode, hop.trans hv, ← hnn]; rfl

namespace Machine

/-! ## What an instruction that writes I alone does -/

section
variable {i : Instr} {s : State} {a : Addr}

/-- An instruction that writes I alone: I, the next PC and the frame. -/
theorem exec_setIndex (hexec : exec i s = .next (s.setIndex a).advance) :
    ∃ t, exec i s = .next t ∧ t.index = a ∧ t.pc = s.pc + 2 ∧
      keepsRegsBut [] s t ∧ keepsSpecials { s with index := a } t ∧ keepsMemory s t :=
  ⟨_, hexec, by simp, by simp, fun _ _ => by simp, by simp [keepsSpecials], fun _ => by simp⟩

/-- The same, with what I holds afterwards given as a number. -/
theorem exec_setIndex_toNat {n : Nat} (hexec : exec i s = .next (s.setIndex a).advance) (hn : a.toNat = n) :
    ∃ t, exec i s = .next t ∧ t.index.toNat = n ∧ t.pc = s.pc + 2 ∧
      keepsRegsBut [] s t ∧ keepsSpecials { s with index := t.index } t ∧ keepsMemory s t := by
  obtain ⟨t, ht, rfl, hframe⟩ := exec_setIndex hexec
  exact ⟨t, ht, hn, hframe⟩

end

/-! ## A byte in the arithmetic of I (R34) -/

theorem byteAsAddr_toNat (b : Byte) : (b.setWidth 12).toNat = b.toNat := BitVec.toNat_setWidth_of_le (by decide)

/-- 5 times the largest byte is 1275, so the product does not wrap. -/
theorem glyphAddr_toNat (b : Byte) : (b.setWidth 12 * 5).toNat = b.toNat * 5 := by
  have hb : b.toNat < 256 := b.isLt
  have hfits : b.toNat * 5 < 2 ^ 12 := by omega
  calc (b.setWidth 12 * 5).toNat
      = (b.setWidth 12).toNat * 5 % 2 ^ 12 := BitVec.toNat_mul _ _
    _ = b.toNat * 5 % 2 ^ 12 := by rw [byteAsAddr_toNat]
    _ = b.toNat * 5 := Nat.mod_eq_of_lt hfits

/-! ## The statements -/

/-- Settles O27: ANNN is `setIndex` of NNN. -/
theorem loadIndex : Obligations.LoadIndex :=
  ⟨fun _ => decode_ldI, fun _ _ => exec_setIndex rfl⟩

/-- Settles O28: FX1E is `setIndex` of a 12-bit sum, which is the sum modulo 4096. -/
theorem addToIndex : Obligations.AddToIndex := by
  refine ⟨fun _ h => decode_of_opF h rfl, fun x s => ?_⟩
  have hsum : (s.index + (s.reg x).setWidth 12).toNat = (s.index.toNat + (s.reg x).toNat) % 4096 := by
    rw [BitVec.toNat_add, byteAsAddr_toNat]
  exact exec_setIndex_toNat rfl hsum

/-- Settles O29: FX29 is `setIndex` of a 12-bit product that does not wrap. -/
theorem pointAtGlyph : Obligations.PointAtGlyph :=
  ⟨fun _ h => decode_of_opF h rfl, fun _ _ => exec_setIndex_toNat rfl (glyphAddr_toNat _)⟩

end Machine

end Sys2Proof
end

section
/-!
SUPPORT. The display view, 44_display.md: the row and the cell at a place, the shape, what the view depends on, and the
statement about it.
-/

namespace Sys2Proof.Machine

/-! ## The cells and the shape of the view (R255) -/

theorem view_getElem? (m : Memory) {p : Nat} (hp : p < 16) :
    (view m)[p]? = some ((List.range columns).map fun c => viewCell m c p) := by
  rw [view, List.getElem?_map, List.getElem?_range hp, Option.map_some]

theorem view_cell (m : Memory) {c p : Nat} (hc : c < columns) (hp : p < 16) :
    ((view m)[p]?.bind fun row => row[c]?) = some (viewCell m c p) := by
  rw [view_getElem? m hp, Option.bind_some, List.getElem?_map, List.getElem?_range hc, Option.map_some]

theorem view_length (m : Memory) : (view m).length = 16 := by rw [view, List.length_map, List.length_range]

theorem length_of_mem_view {m : Memory} {row : List Glyph} (hrow : row ∈ view m) : row.length = columns := by
  obtain ⟨p, -, rfl⟩ := List.mem_map.mp hrow
  rw [List.length_map, List.length_range]

/-! ## What the view depends on: the framebuffer bytes (R250, R255) -/

section
variable {m m' : Memory} (hfb : ∀ a, 0x050 ≤ a → a ≤ 0x14F → m.read a = m'.read a)
include hfb

/-- A pixel of the display is one bit of a framebuffer byte. -/
theorem pixel_congr {x y : Nat} (hx : x < 64) (hy : y < 32) : pixel m x y = pixel m' x y := by
  obtain ⟨hbase, hend⟩ := pixelAddr_range hx hy
  rw [pixel, pixel, hfb _ hbase (Nat.le_of_lt_succ hend)]

theorem viewCell_congr {c p : Nat} (hc : c < 64) (hp : p < 16) : viewCell m c p = viewCell m' c p := by
  have hupper : pixel m c (2 * p) = pixel m' c (2 * p) := pixel_congr hfb hc (by omega)
  have hlower : pixel m c (2 * p + 1) = pixel m' c (2 * p + 1) := pixel_congr hfb hc (by omega)
  rw [viewCell, viewCell, hupper, hlower]

theorem view_congr : view m = view m' :=
  List.map_congr_left fun _ hp => List.map_congr_left fun _ hc =>
    viewCell_congr hfb (List.mem_range.mp hc) (List.mem_range.mp hp)

end

/-! ## The statement -/

/-- Settles O37: the four glyphs are the cases of `glyphOf`, the view is its cells, and each cell reads two pixels, which
are bits of framebuffer bytes. -/
theorem viewIsOfFramebuffer : Obligations.ViewIsOfFramebuffer :=
  ⟨⟨rfl, rfl, rfl, rfl⟩, fun m _ _ hc hp => view_cell m hc hp,
    fun m => ⟨view_length m, fun _ hrow => length_of_mem_view hrow⟩, fun _ _ hfb => view_congr hfb⟩

end Sys2Proof.Machine
end

section
/-!
SUPPORT. The timers, 45_timers_keys.md: what an instruction does that writes one special field alone, and the statement
about the transfers between V[X] and the timers.
-/

namespace Sys2Proof.Machine

/-! ## What an instruction that writes one field beside V, PC and memory does -/

section
variable {i : Instr} {s u : State} {r : Byte}

/-- An instruction that answers the next state of `u`, where `u` is `s` with a byte field written: what the field holds,
the next PC and the frame. -/
theorem exec_setByteField (field : State → Byte) (hexec : exec i s = .next u.advance) (hfield : field u.advance = r)
    (hpc : u.pc = s.pc) (hv : u.v = s.v) (hmem : u.mem = s.mem) :
    ∃ t, exec i s = .next t ∧ field t = r ∧ t.pc = s.pc + 2 ∧
      keepsRegsBut [] s t ∧ keepsSpecials u t ∧ keepsMemory s t :=
  ⟨u.advance, hexec, hfield, by rw [State.advance_pc, hpc], fun q _ => State.reg_of_v hv q, by simp [keepsSpecials],
    fun _ => by rw [State.advance_mem, hmem]⟩

end

/-! ## The statement -/

/-- Settles O38: FX07 is `setReg` of DT, and FX15 and FX18 write the timer and no other field. -/
theorem timerTransfers : Obligations.TimerTransfers := by
  refine ⟨fun _ h => decode_of_opF h rfl, fun _ h => decode_of_opF h rfl, fun _ h => decode_of_opF h rfl,
    fun x s => ⟨?_, ?_, ?_⟩⟩
  · exact exec_setReg rfl
  · exact exec_setByteField State.dt rfl rfl rfl rfl rfl
  · exact exec_setByteField State.st rfl rfl rfl rfl rfl

end Sys2Proof.Machine
end

section
/-!
SUPPORT. The decoder, the encoder and the table of R112 as a whole: the round trips, the rows and the Unsupported space
(30_encoding.md), and the statements about them.
-/

namespace Sys2Proof

/-! ## Decoding (R112) -/

section
variable {w : Word}

theorem decode_jp (h : w &&& 0xF000 = 0x1000) : decode w = some (.jp (fieldNNN w)) := by
  have hop : fieldOp w = 0x1 := fieldOp_of_mask h
  rw [decode, hop]; rfl

theorem decode_call (h : w &&& 0xF000 = 0x2000) : decode w = some (.call (fieldNNN w)) := by
  have hop : fieldOp w = 0x2 := fieldOp_of_mask h
  rw [decode, hop]; rfl

theorem decode_jpV0 (h : w &&& 0xF000 = 0xB000) : decode w = some (.jpV0 (fieldNNN w)) := by
  have hop : fieldOp w = 0xB := fieldOp_of_mask h
  rw [decode, hop]; rfl

theorem decode_rnd (h : w &&& 0xF000 = 0xC000) : decode w = some (.rnd (fieldX w) (fieldNN w)) := by
  have hop : fieldOp w = 0xC := fieldOp_of_mask h
  rw [decode, hop]; rfl

theorem decode_drw (h : w &&& 0xF000 = 0xD000) : decode w = some (.drw (fieldX w) (fieldY w) (fieldN w)) := by
  have hop : fieldOp w = 0xD := fieldOp_of_mask h
  rw [decode, hop]; rfl

theorem decode_seReg (h : w &&& 0xF00F = 0x5000) : decode w = some (.seReg (fieldX w) (fieldY w)) := by
  obtain ⟨hop, hn⟩ : fieldOp w = 0x5 ∧ fieldN w = 0 := fields_of_mask_n h
  rw [decode, hop]; exact if_pos hn

theorem decode_sneReg (h : w &&& 0xF00F = 0x9000) : decode w = some (.sneReg (fieldX w) (fieldY w)) := by
  obtain ⟨hop, hn⟩ : fieldOp w = 0x9 ∧ fieldN w = 0 := fields_of_mask_n h
  rw [decode, hop]; exact if_pos hn

theorem decode_cls (h : w &&& 0xFFFF = 0x00E0) : decode w = some .cls := by
  have hw : w = 0x00E0 := BitVec.and_allOnes.symm.trans h
  rw [hw]; rfl

theorem decode_ret (h : w &&& 0xFFFF = 0x00EE) : decode w = some .ret := by
  have hw : w = 0x00EE := BitVec.and_allOnes.symm.trans h
  rw [hw]; rfl

end

/-! ## From an instruction to its word and back (R101-R104) -/

/-- The fields of an encoded word are the operands and the fixed digits, so the decoder takes the arm of its row. -/
theorem decode_encode (i : Instr) : decode (encode i) = some i := by
  cases i
  case cls | ret => rfl
  all_goals simp [encode, decode, decodeEight, decodeKeySkip, decodeMisc]

theorem decodeBytes_encodeBytes_append (i : Instr) (rest : List Byte) :
    decodeBytes (encodeBytes i ++ rest) = .ok (i, rest) := by
  simp [encodeBytes, decodeBytes, decode_encode]

/-- Settles O1: the fields of an encoded word are its operands, and its two bytes make the word again. -/
theorem decodeOfEncode : Obligations.DecodeOfEncode :=
  fun i => ⟨decode_encode i, decodeBytes_encodeBytes_append i⟩

/-! ## The Unsupported space, by leading nibble (R113) -/

/-- A nibble that is none of 0-E is F: the decoder's last arm. -/
theorem nibble_eq_F {n : Nibble} (h : n ∉ ([0x0, 0x1, 0x2, 0x3, 0x4, 0x5, 0x6, 0x7, 0x8, 0x9, 0xA, 0xB, 0xC, 0xD, 0xE] :
    List Nibble)) : n = 0xF := by
  revert n; decide

theorem decodeZero_eq_none_iff (w : Word) : decodeZero w = none ↔ w ≠ 0x00E0 ∧ w ≠ 0x00EE := by
  unfold decodeZero; split <;> simp_all

theorem decodeEight_eq_none_iff (x y n : Nibble) :
    decodeEight x y n = none ↔ n ∈ ([0x8, 0x9, 0xA, 0xB, 0xC, 0xD, 0xF] : List Nibble) := by
  unfold decodeEight
  split
  case h_10 =>
    have hrest : ∀ m : Nibble, m ∉ ([0x0, 0x1, 0x2, 0x3, 0x4, 0x5, 0x6, 0x7, 0xE] : List Nibble) →
        m ∈ ([0x8, 0x9, 0xA, 0xB, 0xC, 0xD, 0xF] : List Nibble) := by decide
    exact iff_of_true rfl (hrest n (by simp_all))
  all_goals simp

theorem decodeKeySkip_eq_none_iff (x : Nibble) (nn : Byte) :
    decodeKeySkip x nn = none ↔ nn ∉ ([0x9E, 0xA1] : List Byte) := by
  unfold decodeKeySkip; split <;> simp_all

theorem decodeMisc_eq_none_iff (x : Nibble) (nn : Byte) :
    decodeMisc x nn = none ↔ nn ∉ ([0x07, 0x0A, 0x15, 0x18, 0x1E, 0x29, 0x33, 0x55, 0x65] : List Byte) := by
  unfold decodeMisc; split <;> simp_all

/-- Settles O4: an arm of the decoder answers none as its sub-decoder does, or where its N is not 0. -/
theorem unsupportedSpace : Obligations.UnsupportedSpace := by
  intro w
  unfold decode
  split
  case h_16 =>
    have hop : fieldOp w = 0xF := nibble_eq_F (by simp_all)
    simp [hop, decodeMisc_eq_none_iff]
  all_goals simp [*, decodeZero_eq_none_iff, decodeEight_eq_none_iff, decodeKeySkip_eq_none_iff]

/-! ## From a word to its instruction and back (R102, R112) -/

theorem encode_of_decodeZero {w : Word} {i : Instr} (h : decodeZero w = some i) : encode i = w := by
  unfold decodeZero at h
  split at h
  case isTrue hw => cases h; exact hw.symm
  case isFalse =>
    split at h
    case isTrue hw => cases h; exact hw.symm
    case isFalse => cases h

/-- Leading nibble 8: the two shifts have any Y and are encoded with Y = 0. -/
theorem encode_of_decodeEight {x y n : Nibble} {i : Instr} (h : decodeEight x y n = some i) :
    encode i = packNibbles 0x8 x y n ∨
      (((∃ x, i = .shr x) ∨ (∃ x, i = .shl x)) ∧ encode i = packNibbles 0x8 x 0x0 n) := by
  unfold decodeEight at h
  split at h <;> cases h
  case h_7 => exact .inr ⟨.inl ⟨x, rfl⟩, rfl⟩
  case h_9 => exact .inr ⟨.inr ⟨x, rfl⟩, rfl⟩
  all_goals exact .inl rfl

theorem encode_of_decodeKeySkip {x : Nibble} {nn : Byte} {i : Instr} (h : decodeKeySkip x nn = some i) :
    encode i = (0xE : Nibble) ++ x ++ nn := by
  unfold decodeKeySkip at h
  split at h <;> cases h <;> rfl

theorem encode_of_decodeMisc {x : Nibble} {nn : Byte} {i : Instr} (h : decodeMisc x nn = some i) :
    encode i = (0xF : Nibble) ++ x ++ nn := by
  unfold decodeMisc at h
  split at h <;> cases h <;> rfl

theorem and_clearY (w : Word) : w &&& 0xFF0F = packNibbles (fieldOp w) (fieldX w) 0x0 (fieldN w) := by
  refine word_ext ?_ ?_ ?_ ?_
  · rw [fieldOp_packNibbles, fieldOp_and]; exact BitVec.and_allOnes
  · rw [fieldX_packNibbles]; exact BitVec.extractLsb'_and.trans BitVec.and_allOnes
  · rw [fieldY_packNibbles]; exact BitVec.extractLsb'_and.trans BitVec.and_zero
  · rw [fieldN_packNibbles, fieldN_and]; exact BitVec.and_allOnes

/-- Settles O2: a word is its leading nibble and its operands in every format of R102, and only the shifts lose their
Y. -/
theorem encodeOfDecode : Obligations.EncodeOfDecode := by
  intro w i h
  have hnnn := eq_nnn w
  have hxnn := eq_xnn w
  have hpack := packNibbles_fields w
  unfold decode at h
  split at h
  case h_1 => exact .inl (encode_of_decodeZero h)
  case h_2 hop | h_3 hop | h_11 hop | h_12 hop =>
    cases h
    rw [hop] at hnnn
    exact .inl hnnn
  case h_4 hop | h_5 hop | h_7 hop | h_8 hop | h_13 hop =>
    cases h
    rw [hop] at hxnn
    exact .inl hxnn
  case h_6 hop | h_10 hop =>
    split at h
    case isTrue hn =>
      cases h
      rw [hop, hn] at hpack
      exact .inl hpack
    case isFalse => cases h
  case h_9 hop =>
    rw [hop] at hpack
    obtain hword | ⟨hshift, hword⟩ := encode_of_decodeEight h
    · exact .inl (hword.trans hpack)
    · exact .inr ⟨hshift, by rw [hword, and_clearY, hop]; rfl⟩
  case h_14 hop =>
    cases h
    rw [hop] at hpack
    exact .inl hpack
  case h_15 hop =>
    rw [hop] at hxnn
    exact .inl ((encode_of_decodeKeySkip h).trans hxnn)
  case h_16 =>
    have hop : fieldOp w = 0xF := nibble_eq_F (by simp_all)
    rw [hop] at hxnn
    exact .inl ((encode_of_decodeMisc h).trans hxnn)

/-! ## The rows of the table (R112) -/

open Sys2Proof.Laws in
/-- Every instruction's word selects its row, by the format of the row. -/
theorem rowOf_selects_encode (i : Instr) : (rowOf i).selects (encode i) = true := by
  cases i
  case cls | ret => rfl
  case jp | call | ldI | jpV0 => exact EncodeMatchesRow.selects_of_op (fieldOp_nnn _ _)
  case seImm | sneImm | ldImm | addImm | rnd => exact EncodeMatchesRow.selects_of_op (fieldOp_xnn _ _ _)
  case drw => exact EncodeMatchesRow.selects_of_op (fieldOp_packNibbles _ _ _ _)
  case seReg | sneReg | ldReg | orReg | andReg | xorReg | addReg | sub | shr | subn | shl =>
    exact EncodeMatchesRow.selects_of_op_n _ _ _ _
  all_goals exact EncodeMatchesRow.selects_of_op_nn _ _ _

theorem rowOf_mem_opcodeTable (i : Instr) : rowOf i ∈ opcodeTable := by
  cases i <;> simp [rowOf, opcodeTable]

/-- A row with mask 0xF00F does not see Y. -/
theorem selects_clearY (w v : Word) :
    (⟨v, 0xF00F⟩ : OpcodeRow).selects (w &&& 0xFF0F) = (⟨v, 0xF00F⟩ : OpcodeRow).selects w := by
  have hmask : (0xFF0F : Word) &&& 0xF00F = 0xF00F := rfl
  rw [OpcodeRow.selects, OpcodeRow.selects, BitVec.and_assoc, hmask]

theorem rowOf_selects_of_decode {w : Word} {i : Instr} (h : decode w = some i) : (rowOf i).selects w = true := by
  have hselects := rowOf_selects_encode i
  obtain hword | ⟨⟨x, rfl⟩ | ⟨x, rfl⟩, hword⟩ := encodeOfDecode w i h
  · rwa [hword] at hselects
  · rwa [hword, rowOf, selects_clearY] at hselects
  · rwa [hword, rowOf, selects_clearY] at hselects

/-- A word that a row of the table selects decodes to an instruction of that row: row by row, in the table's order. -/
theorem decode_of_selects {w : Word} {r : OpcodeRow} (hr : r ∈ opcodeTable) (h : r.selects w = true) :
    ∃ i, decode w = some i ∧ rowOf i = r := by
  have hrows : ∀ r ∈ opcodeTable, w &&& r.mask = r.value → ∃ i, decode w = some i ∧ rowOf i = r := by
    simp only [opcodeTable, List.forall_mem_append, List.forall_mem_cons, List.not_mem_nil, false_implies, implies_true,
      and_true]
    refine ⟨⟨⟨?_, ?_⟩, ?_⟩, ?_⟩
    · exact ⟨fun h => ⟨_, decode_cls h, rfl⟩, fun h => ⟨_, decode_ret h, rfl⟩, fun h => ⟨_, decode_jp h, rfl⟩,
        fun h => ⟨_, decode_call h, rfl⟩, fun h => ⟨_, decode_seImm h, rfl⟩, fun h => ⟨_, decode_sneImm h, rfl⟩,
        fun h => ⟨_, decode_seReg h, rfl⟩, fun h => ⟨_, decode_ldImm h, rfl⟩, fun h => ⟨_, decode_addImm h, rfl⟩⟩
    · refine ⟨?_, ?_, ?_, ?_, ?_, ?_, ?_, ?_, ?_, fun h => ⟨_, decode_sneReg h, rfl⟩⟩ <;>
        exact fun h => ⟨_, decode_of_op8 h rfl, rfl⟩
    · exact ⟨fun h => ⟨_, decode_ldI h, rfl⟩, fun h => ⟨_, decode_jpV0 h, rfl⟩, fun h => ⟨_, decode_rnd h, rfl⟩,
        fun h => ⟨_, decode_drw h, rfl⟩, fun h => ⟨_, decode_skp h, rfl⟩, fun h => ⟨_, decode_sknp h, rfl⟩⟩
    · refine ⟨?_, ?_, ?_, ?_, ?_, ?_, ?_, ?_, ?_⟩ <;> exact fun h => ⟨_, decode_of_opF h rfl, rfl⟩
  exact hrows r hr (beq_iff_eq.mp h)

/-- Settles O3: a decoded word is its instruction's word up to an ignored Y, so it selects that row; a word that
selected two rows would decode to an instruction of each. -/
theorem decodeAgreesWithTable : Obligations.DecodeAgreesWithTable := by
  refine ⟨fun w i h => ⟨rowOf_mem_opcodeTable i, rowOf_selects_of_decode h⟩, fun w r hr h => decode_of_selects hr h,
    fun w r r' hr hr' h h' => ?_⟩
  obtain ⟨i, hi, rfl⟩ := decode_of_selects hr h
  obtain ⟨i', hi', rfl⟩ := decode_of_selects hr' h'
  rw [Option.some.inj (hi.symm.trans hi')]

/-! ## Sample words -/

/-- Settles O5: the decoder evaluates on each word. -/
theorem sampleWordsDecode : Obligations.SampleWordsDecode := by
  unfold Obligations.SampleWordsDecode
  decide

end Sys2Proof
end

section
/-!
SUPPORT. Every instruction in closed form: it faults at the address R303 gives (`faultAddress`), and otherwise completes
in one state (`nextState`).
-/

namespace Sys2Proof.Machine

/-! ## The next state of every instruction -/

/-- The state an instruction completes in, where no access of it is out of range. -/
def nextState : Instr → State → State
  | .cls, s => (s.setMem (clearFramebuffer s.mem)).advance
  | .ret, s => { s with sp := s.sp - 2 }.jump (wordOfBytes (s.mem.read s.popSlot) (s.mem.read (s.popSlot + 1)))
  | .jp nnn, s => s.jump (zext16 nnn)
  | .call nnn, s =>
    { s with
      mem := s.mem.writeAll s.pushSlot [Word.hi s.returnAddress, Word.lo s.returnAddress]
      sp := s.pushedSp }.jump (zext16 nnn)
  | .seImm x nn, s => s.skipIf (s.reg x == nn)
  | .sneImm x nn, s => s.skipIf (s.reg x != nn)
  | .seReg x y, s => s.skipIf (s.reg x == s.reg y)
  | .ldImm x nn, s => (s.setReg x nn).advance
  | .addImm x nn, s => (s.setReg x (s.reg x + nn)).advance
  | .ldReg x y, s => (s.setReg x (s.reg y)).advance
  | .orReg x y, s => (s.setReg x (s.reg x ||| s.reg y)).advance
  | .andReg x y, s => (s.setReg x (s.reg x &&& s.reg y)).advance
  | .xorReg x y, s => (s.setReg x (s.reg x ^^^ s.reg y)).advance
  | .addReg x y, s => (s.setResultAndFlag x (s.reg x + s.reg y) (carry (s.reg x) (s.reg y))).advance
  | .sub x y, s => (s.setResultAndFlag x (s.reg x - s.reg y) (exceeds (s.reg x) (s.reg y))).advance
  | .shr x, s => (s.setResultAndFlag x (s.reg x >>> 1) (lowBit (s.reg x))).advance
  | .subn x y, s => (s.setResultAndFlag x (s.reg y - s.reg x) (exceeds (s.reg y) (s.reg x))).advance
  | .shl x, s => (s.setResultAndFlag x (s.reg x <<< 1) (highBit (s.reg x))).advance
  | .sneReg x y, s => s.skipIf (s.reg x != s.reg y)
  | .ldI nnn, s => (s.setIndex nnn).advance
  | .jpV0 nnn, s => s.jump ((s.reg offsetReg).setWidth 16 + zext16 nnn)
  | .rnd x nn, s => (s.countDraw.setReg x (s.drawnByte &&& nn)).advance
  | .drw x y n, s => ((s.setMem (drawn x y n s).mem).setFlag (drawn x y n s).hit).advance
  | .skp x, s => s.skipIf (s.reg x == s.keyByte)
  | .sknp x, s => s.skipIf (s.reg x != s.keyByte)
  | .ldVxDt x, s => (s.setReg x s.dt).advance
  | .ldVxK x, s => { s with status := .blocked x }
  | .ldDtVx x, s => { s with dt := s.reg x }.advance
  | .ldStVx x, s => { s with st := s.reg x }.advance
  | .addI x, s => (s.setIndex (s.index + (s.reg x).setWidth 12)).advance
  | .ldF x, s => (s.setIndex ((s.reg x).setWidth 12 * 5)).advance
  | .ldB x, s => (s.setMem (s.mem.writeAll s.indexAddr (decimalDigits (s.reg x)))).advance
  | .storeRegs x, s => (s.setMem (s.mem.writeAll s.indexAddr (s.regsBelow (regCount x)))).advance
  | .loadRegs x, s =>
    (s.setRegsFrom 0 ((List.range (regCount x)).map fun k => s.mem.read (s.indexAddr + k))).advance

/-- 00E0 but for what it stores, which no field but memory depends on. -/
theorem nextState_cls (s : State) : ∃ m, nextState .cls s = (s.setMem m).advance := ⟨clearFramebuffer s.mem, rfl⟩

/-! ## The first address out of range, by the access (R303) -/

/-- A word at `slot`: the first of its two bytes that is not inside memory (R140, R142). -/
theorem slotFault_eq (slot : Nat) :
    (if 0xFFF < slot then some slot else if slot = 0xFFF then some 0x1000 else none) =
      if memorySize ≤ slot + 1 then some (max slot memorySize) else none := by
  unfold memorySize
  rcases Nat.lt_trichotomy slot 0xFFF with h | rfl | h
  · rw [if_neg (by omega), if_neg (by omega), if_neg (by omega)]
  · rfl
  · rw [if_pos h, if_pos (by omega), max_eq_left (by omega)]

theorem pushSlot_eq (s : State) : s.pushSlot = (s.sp.toNat + 2) % 0x10000 := BitVec.toNat_add _ _

section
variable (s : State)

theorem faultAddress_ret :
    faultAddress .ret s = if memorySize ≤ s.popSlot + 1 then some (max s.popSlot memorySize) else none :=
  slotFault_eq _

theorem faultAddress_call (nnn : Addr) :
    faultAddress (.call nnn) s = if memorySize ≤ s.pushSlot + 1 then some (max s.pushSlot memorySize) else none := by
  rw [pushSlot_eq]; exact slotFault_eq _

theorem faultAddress_drw (x y n : Nibble) :
    faultAddress (.drw x y n) s =
      if n.toNat ≠ 0 ∧ memorySize < s.indexAddr + n.toNat then some memorySize else none :=
  if_congr (by unfold State.indexAddr memorySize; omega) rfl rfl

theorem faultAddress_ldB (x : Nibble) :
    faultAddress (.ldB x) s = if memorySize < s.indexAddr + 3 then some memorySize else none :=
  if_congr (by unfold State.indexAddr memorySize; omega) rfl rfl

theorem faultAddress_storeRegs (x : Nibble) :
    faultAddress (.storeRegs x) s = if memorySize < s.indexAddr + regCount x then some memorySize else none :=
  if_congr (by unfold State.indexAddr memorySize regCount; omega) rfl rfl

theorem faultAddress_loadRegs (x : Nibble) :
    faultAddress (.loadRegs x) s = if memorySize < s.indexAddr + regCount x then some memorySize else none :=
  faultAddress_storeRegs s x

end

/-! ## Every instruction in closed form -/

/-- An instruction faults where it has a fault address, and otherwise completes in its next state. -/
theorem exec_eq (i : Instr) (s : State) :
    exec i s = (faultAddress i s).elim (.next (nextState i s)) fun a => .fault (.outOfRange s.pc a) := by
  cases i with
  | ret =>
    rw [faultAddress_ret]
    split_ifs with h
    · exact exec_ret_fault h
    · exact exec_ret_next (not_le.mp h)
  | call nnn =>
    rw [faultAddress_call]
    split_ifs with h
    · exact exec_call_fault nnn h
    · exact exec_call_next nnn (not_le.mp h)
  | drw x y n =>
    rw [faultAddress_drw]
    split_ifs with h
    · exact exec_drw_fault x y n h.1 h.2
    · exact exec_drw_next x y n (by omega)
  | ldB x =>
    rw [faultAddress_ldB]
    split_ifs with h
    · exact exec_ldB_fault x h
    · exact exec_ldB_next x (not_lt.mp h)
  | storeRegs x =>
    rw [faultAddress_storeRegs]
    split_ifs with h
    · exact exec_storeRegs_fault x h
    · exact exec_storeRegs_next x (not_lt.mp h)
  | loadRegs x =>
    rw [faultAddress_loadRegs]
    split_ifs with h
    · exact exec_loadRegs_fault x h
    · exact exec_loadRegs_next x (not_lt.mp h)
  | _ => rfl

/-- Everything an instruction that completes can do. -/
theorem exec_next_iff {i : Instr} {s t : State} :
    exec i s = .next t ↔ faultAddress i s = none ∧ t = nextState i s := by
  rw [exec_eq]
  cases faultAddress i s <;> simp [eq_comm]

theorem exec_fault_iff {i : Instr} {s : State} {f : Fault} :
    exec i s = .fault f ↔ ∃ a, faultAddress i s = some a ∧ f = .outOfRange s.pc a := by
  rw [exec_eq]
  cases faultAddress i s <;> simp [eq_comm]

theorem exec_ne_refused (i : Instr) (s : State) (r : Refusal) : exec i s ≠ .refused r := by
  rw [exec_eq]
  cases faultAddress i s <;> simp

theorem lt_of_ite_eq_some {c : Prop} [Decidable c] {v a : Nat} (hv : 0xFFF < v)
    (h : (if c then some v else none) = some a) : 0xFFF < a := by
  obtain ⟨-, hva⟩ := Option.ite_none_right_eq_some.mp h
  cases hva
  exact hv

/-- A fault address is above 0xFFF. -/
theorem lt_faultAddress {i : Instr} {s : State} {a : Nat} (h : faultAddress i s = some a) : 0xFFF < a := by
  have hsize : 0xFFF < memorySize := by decide
  cases i with
  | ret => exact lt_of_ite_eq_some (lt_max_of_lt_right hsize) ((faultAddress_ret s).symm.trans h)
  | call nnn => exact lt_of_ite_eq_some (lt_max_of_lt_right hsize) ((faultAddress_call s nnn).symm.trans h)
  | drw | ldB | storeRegs | loadRegs => exact lt_of_ite_eq_some hsize h
  | _ => cases h

/-- Settles O8: `exec_eq` read in both directions. -/
theorem execFaultsExactly : Obligations.ExecFaultsExactly :=
  fun i s => ⟨fun _ => exec_fault_iff, exec_ne_refused i s⟩

end Sys2Proof.Machine
end

section
/-!
SUPPORT. What an instruction may write, over all 34 forms (the tables R31 and R73, and R32-R42, R121): the fields
of the next state, and the whole-machine statements about completed instructions.
-/

namespace Sys2Proof.Machine

/-! ## The special registers and the host's side (R34, R38-R42) -/

section
variable (i : Instr) (s : State)

/-- I, SP, DT, ST and KEY after an instruction: each as before, but for the instructions that write it. -/
theorem nextState_specials :
    ((nextState i s).index = s.index ∨ (∃ nnn, i = .ldI nnn) ∨ (∃ x, i = .addI x) ∨ ∃ x, i = .ldF x) ∧
    ((nextState i s).sp = s.sp ∨ (i = .ret ∧ (nextState i s).sp = s.sp - 2) ∨
      ∃ nnn, i = .call nnn ∧ (nextState i s).sp = s.sp + 2) ∧
    ((nextState i s).dt = s.dt ∨ ∃ x, i = .ldDtVx x) ∧ ((nextState i s).st = s.st ∨ ∃ x, i = .ldStVx x) ∧
    (nextState i s).key = s.key := by
  cases i with
  | cls => obtain ⟨m, hm⟩ := nextState_cls s; simp [hm]
  | _ => simp [nextState, State.pushedSp]

/-- The status and the model's own fields after an instruction: as before, but for FX0A and CXNN. -/
theorem nextState_hostSide :
    ((nextState i s).status = s.status ∨ ∃ x, i = .ldVxK x ∧ (nextState i s).status = .blocked x) ∧
    ((nextState i s).draws = s.draws ∨ ∃ x nn, i = .rnd x nn ∧ (nextState i s).draws = s.draws + 1) ∧
    (nextState i s).hostEvents = s.hostEvents ∧ (nextState i s).loadable = s.loadable := by
  cases i with
  | cls => obtain ⟨m, hm⟩ := nextState_cls s; simp [hm]
  | _ => simp [nextState]

theorem nextState_status :
    (nextState i s).status = s.status ∨ ∃ x, i = .ldVxK x ∧ (nextState i s).status = .blocked x :=
  (nextState_hostSide i s).1

theorem nextState_loadable : (nextState i s).loadable = s.loadable := by
  obtain ⟨-, -, -, hloadable⟩ := nextState_hostSide i s
  exact hloadable

end

/-- Settles O52: field by field of the next state. -/
theorem specialRegisterWriters : Obligations.SpecialRegisterWriters := by
  intro i s t h
  obtain ⟨-, rfl⟩ := exec_next_iff.mp h
  exact nextState_specials i s

/-- Settles O55: field by field of the next state. -/
theorem hostSideWriters : Obligations.HostSideWriters := by
  intro i s t h
  obtain ⟨-, rfl⟩ := exec_next_iff.mp h
  exact nextState_hostSide i s

/-! ## The general registers (R31, R32) -/

theorem mem_regsUpTo {x r : Nibble} : r ∈ regsUpTo x ↔ r.toNat ≤ x.toNat := by
  simp only [regsUpTo, regCount, List.mem_map, List.mem_range]
  constructor
  · rintro ⟨k, hk, rfl⟩
    rw [BitVec.toNat_ofNat]
    exact (Nat.mod_le k _).trans (by omega)
  · exact fun h => ⟨r.toNat, by omega, by simp⟩

/-- FX65 register by register (R225). -/
theorem nextState_loadRegs_reg (x r : Nibble) (s : State) : (nextState (.loadRegs x) s).reg r =
    if r.toNat ≤ x.toNat then s.mem.read (s.indexAddr + r.toNat) else s.reg r := by
  have hx : x.toNat < 16 := x.isLt
  have hlen : 0 + ((List.range (regCount x)).map fun k => s.mem.read (s.indexAddr + k)).length ≤ 16 := by
    simp [regCount]; omega
  rw [nextState, State.advance_reg, State.setRegsFrom_reg s 0 _ r hlen]
  by_cases h : r.toNat ≤ x.toNat
  · have hr : r.toNat < regCount x := Nat.lt_succ_of_le h
    simp [h, hr]
  · have hr : ¬ r.toNat < regCount x := fun hlt => h (Nat.le_of_lt_succ hlt)
    simp [h, hr]

/-- The registers outside the row of R31 are unchanged. -/
theorem keepsRegsBut_nextState (i : Instr) (s : State) : keepsRegsBut (writtenRegs i) s (nextState i s) := by
  intro r hr
  cases i with
  | loadRegs x =>
    have hx : ¬ r.toNat ≤ x.toNat := fun h => hr (mem_regsUpTo.mpr h)
    rw [nextState_loadRegs_reg, if_neg hx]
  | cls => obtain ⟨m, hm⟩ := nextState_cls s; simp [hm]
  | ret | call | ldVxK | ldDtVx | ldStVx => exact State.reg_of_v rfl r
  | _ => simp_all [nextState, writtenRegs]

theorem flagByte_eq (c : Bool) : flagByte c = 0 ∨ flagByte c = 1 := by cases c <;> simp [flagByte]

/-- A flag writer leaves a flag in VF, also where VF is its destination (R15, R32). -/
theorem nextState_flag {i : Instr} (hi : writesFlag i = true) (s : State) :
    ∃ c, (nextState i s).reg flagReg = flagByte c := by
  cases i
  case addReg | sub | shr | subn | shl | drw => simp [nextState]
  all_goals cases hi

/-- Settles O53: register by register of the next state. -/
theorem generalRegisterWriters : Obligations.GeneralRegisterWriters := by
  intro i s t h
  obtain ⟨-, rfl⟩ := exec_next_iff.mp h
  exact keepsRegsBut_nextState i s

/-- Settles O56: a flag writer leaves a `flagByte`, and for any other instruction VF is a register like the rest. -/
theorem flagIsZeroOrOne : Obligations.FlagIsZeroOrOne := by
  intro i s t h
  obtain ⟨-, rfl⟩ := exec_next_iff.mp h
  refine ⟨fun hi => ?_, fun _ hF => keepsRegsBut_nextState i s 0xF hF⟩
  obtain ⟨c, hc⟩ := nextState_flag hi s
  exact (flagByte_eq c).imp hc.trans hc.trans

/-! ## Memory (R73) -/

/-- The bytes outside the range of R73 are unchanged. -/
theorem keepsMemoryOutside_nextState (i : Instr) (s : State) :
    keepsMemoryOutside (storedRange i s).1 (storedRange i s).2 s (nextState i s) := by
  intro a ha
  cases i with
  | cls =>
    have hfb : a < framebufferBase ∨ framebufferBase + framebufferSize ≤ a := ha
    rw [nextState, State.advance_mem, State.setMem_mem, clearFramebuffer_read, if_neg (by omega)]
  | drw x y n => exact drawRows_read_outside _ _ _ _ ha
  | call nnn => exact Memory.read_writeAll_outside ha
  | ldB x => exact Memory.read_writeAll_outside ha
  | storeRegs x => exact Memory.read_writeAll_outside (by rwa [State.regsBelow_length])
  | _ => simp [nextState]

/-- Settles O54: byte by byte of the next state. -/
theorem memoryWriters : Obligations.MemoryWriters := by
  intro i s t h
  obtain ⟨-, rfl⟩ := exec_next_iff.mp h
  exact keepsMemoryOutside_nextState i s

/-! ## The next PC (R121) -/

@[simp] theorem zext16_toNat (nnn : Addr) : (zext16 nnn).toNat = nnn.toNat := BitVec.toNat_setWidth_of_le (by decide)

/-- BNNN is not masked: V0 plus NNN fits in 16 bits (R36, R143). -/
theorem offsetTarget_toNat (b : Byte) (nnn : Addr) : (b.setWidth 16 + zext16 nnn).toNat = b.toNat + nnn.toNat := by
  have hb : (b.setWidth 16).toNat = b.toNat := BitVec.toNat_setWidth_of_le (by decide)
  have hb' : b.toNat < 256 := b.isLt
  have hnnn : nnn.toNat < 4096 := nnn.isLt
  rw [BitVec.toNat_add, hb, zext16_toNat]
  omega

theorem skipIf_pc_cases (s : State) (c : Bool) : (s.skipIf c).pc = s.pc + 2 ∨ (s.skipIf c).pc = s.pc + 4 := by
  cases c
  · exact .inl rfl
  · exact .inr rfl

/-- Settles O57: the PC of the next state, form by form; the end of a wait is `advance`. -/
theorem nextPc : Obligations.NextPc := by
  refine ⟨fun i s t h => ?_, fun s x k => rfl⟩
  obtain ⟨-, rfl⟩ := exec_next_iff.mp h
  cases i with
  | jp nnn | call nnn => exact zext16_toNat nnn
  | jpV0 nnn => exact offsetTarget_toNat _ nnn
  | seImm | sneImm | seReg | sneReg | skp | sknp => exact skipIf_pc_cases s _
  | ret => rfl
  | cls => obtain ⟨m, hm⟩ := nextState_cls s; simp [hm]
  | _ => simp [nextState]

/-! ## ST is not read (R40, R282) -/

section
variable (s : State) (b : Byte)

theorem setRegsFrom_withSt (k : Nat) (bs : List Byte) :
    { s with st := b }.setRegsFrom k bs = { s.setRegsFrom k bs with st := b } := by
  induction bs generalizing s k with
  | nil => rfl
  | cons v bs ih => exact ih (s.setReg (BitVec.ofNat 4 k) v) (k + 1)

theorem faultAddress_withSt (i : Instr) : faultAddress i { s with st := b } = faultAddress i s := by
  cases i <;> rfl

theorem drawn_withSt (x y n : Nibble) : drawn x y n { s with st := b } = drawn x y n s := rfl

theorem setMem_advance_withSt (m : Memory) :
    ({ s with st := b }.setMem m).advance = { (s.setMem m).advance with st := b } := rfl

/-- The next state with another ST is the next state, but for ST. -/
theorem nextState_withSt (i : Instr) :
    nextState i { s with st := b } = { nextState i s with st := (nextState i { s with st := b }).st } := by
  cases i with
  | cls => exact setMem_advance_withSt s b (clearFramebuffer s.mem)
  | drw x y n => rw [nextState, drawn_withSt]; rfl
  | loadRegs x => simp only [nextState, setRegsFrom_withSt]; rfl
  | _ => rfl

end

/-- Settles O42: neither where an instruction faults nor what it leaves depends on ST, but for ST itself. -/
theorem soundTimerIsNotRead : Obligations.SoundTimerIsNotRead := by
  refine fun i s b => ⟨fun f h => ?_, fun t h => ?_⟩
  · obtain ⟨a, ha, rfl⟩ := exec_fault_iff.mp h
    exact exec_fault_iff.mpr ⟨a, (faultAddress_withSt s b i).trans ha, rfl⟩
  · obtain ⟨hnone, rfl⟩ := exec_next_iff.mp h
    exact ⟨_, exec_next_iff.mpr ⟨(faultAddress_withSt s b i).trans hnone, rfl⟩, nextState_withSt s b i⟩

end Sys2Proof.Machine
end

section
/-!
SUPPORT. The step of the machine and the events of its host (R120, R284, R305, R320-R328, R353): what each answers, what
an answer comes from, and the statements about them.
-/

namespace Sys2Proof.Machine

/-! ## The execution step (R120) -/

section
variable {s t : State} {i : Instr} {f : Fault}

theorem fetch_eq_wordAtPc (hpc : s.pc.toNat + 1 < memorySize) : s.fetch = .ok s.wordAtPc := State.fetch_ok hpc

theorem executionStep_of_decode (hpc : s.pc.toNat + 1 < memorySize) (hdecode : decode s.wordAtPc = some i) :
    executionStep s = exec i s.closeLoad := by
  rw [executionStep, fetch_eq_wordAtPc hpc, attempt_ok, hdecode]

theorem executionStep_unsupported (hpc : s.pc.toNat + 1 < memorySize) (hdecode : decode s.wordAtPc = none) :
    executionStep s = .fault (.unsupported s.pc s.wordAtPc) := by
  rw [executionStep, fetch_eq_wordAtPc hpc, attempt_ok, hdecode]; rfl

theorem executionStep_unfetchable (hpc : memorySize ≤ s.pc.toNat + 1) :
    executionStep s = .fault (.outOfRange s.pc (max s.pc.toNat memorySize)) := by
  rw [executionStep, State.fetch_error hpc, attempt_error]

/-- A completed execution step ran the instruction at its PC. -/
theorem executionStep_next (h : executionStep s = .next t) :
    s.pc.toNat + 1 < memorySize ∧ ∃ i, decode s.wordAtPc = some i ∧ exec i s.closeLoad = .next t := by
  rcases Nat.lt_or_ge (s.pc.toNat + 1) memorySize with hpc | hpc
  · cases hdecode : decode s.wordAtPc with
    | none => rw [executionStep_unsupported hpc hdecode] at h; cases h
    | some i => exact ⟨hpc, i, rfl, executionStep_of_decode hpc hdecode ▸ h⟩
  · rw [executionStep_unfetchable hpc] at h; cases h

/-- The fault of an execution step names its PC, and an address above 0xFFF (R301). -/
theorem executionStep_fault (h : executionStep s = .fault f) :
    (∃ w, f = .unsupported s.pc w) ∨ ∃ a, 0xFFF < a ∧ f = .outOfRange s.pc a := by
  rcases Nat.lt_or_ge (s.pc.toNat + 1) memorySize with hpc | hpc
  · cases hdecode : decode s.wordAtPc with
    | none =>
      rw [executionStep_unsupported hpc hdecode] at h
      cases h
      exact .inl ⟨_, rfl⟩
    | some i =>
      rw [executionStep_of_decode hpc hdecode] at h
      obtain ⟨a, ha, rfl⟩ := exec_fault_iff.mp h
      exact .inr ⟨a, lt_faultAddress ha, rfl⟩
  · rw [executionStep_unfetchable hpc] at h
    cases h
    exact .inr ⟨_, lt_max_of_lt_right (by decide), rfl⟩

end

/-! ## The event a step performs (R320, log entry 4) -/

section
variable {s : State} {e : HostEvent} {later : List HostEvent}

theorem step_eq_perform (s : State) : step s = perform s.nextEvent s.takeEvent := rfl

theorem step_of_no_event (h : s.hostEvents = []) : step s = perform .step s := by
  rw [step_eq_perform, State.nextEvent, State.takeEvent, h]

theorem step_of_event (h : s.hostEvents = e :: later) (he : e ≠ .stop) :
    step s = perform e { s with hostEvents := later } := by
  rw [step_eq_perform, State.nextEvent, State.takeEvent, h]
  cases e
  case stop => exact absurd rfl he
  all_goals rfl

theorem step_of_stop (h : s.hostEvents = .stop :: later) : step s = perform .stop s := by
  rw [step_eq_perform, State.nextEvent, State.takeEvent, h]

theorem perform_of_running (h : s.status = .running) (e : HostEvent) : perform e s = performRunning e s := by
  rw [perform, h]

theorem perform_of_blocked {x : Nibble} (h : s.status = .blocked x) (e : HostEvent) :
    perform e s = performBlocked x e s := by
  rw [perform, h]

theorem perform_of_faulted {f : Fault} (h : s.status = .faulted f) (e : HostEvent) : perform e s = .fault f := by
  rw [perform, h]; rfl

theorem step_of_running (hrun : s.status = .running) (h : s.hostEvents = e :: later) (he : e ≠ .stop) :
    step s = performRunning e { s with hostEvents := later } :=
  (step_of_event h he).trans (perform_of_running (s := { s with hostEvents := later }) hrun e)

theorem step_of_blocked {x : Nibble} (hblocked : s.status = .blocked x) (h : s.hostEvents = e :: later)
    (he : e ≠ .stop) : step s = performBlocked x e { s with hostEvents := later } :=
  (step_of_event h he).trans (perform_of_blocked (s := { s with hostEvents := later }) hblocked e)

end

/-- Settles O6: the event is taken off the list, the fetch answers the word at PC, and its instruction is executed. -/
theorem stepRunsDecodedInstruction : Obligations.StepRunsDecodedInstruction := by
  intro s i hrun hpc hdecode
  have hfetch : s.pc.toNat + 1 < memorySize := Nat.succ_lt_succ hpc
  refine ⟨fun hnone => ?_, fun later hlist => ?_⟩
  · rw [step_of_no_event hnone, perform_of_running hrun]
    exact executionStep_of_decode hfetch hdecode
  · rw [step_of_running hrun hlist HostEvent.noConfusion, performRunning]
    exact executionStep_of_decode hfetch hdecode

theorem wordAtPc_takeEvent (s : State) : s.takeEvent.wordAtPc = s.wordAtPc := by simp [State.wordAtPc]

theorem step_of_step_event {s : State} (hrun : s.status = .running) (he : s.nextEvent = .step) :
    step s = executionStep s.takeEvent := by
  rw [step_eq_perform, he, perform_of_running (by rwa [State.takeEvent_status]), performRunning]

/-- Settles O7: taking the event off the list changes neither PC nor memory, and the fetch or the decoding fails. -/
theorem stepFaultsBeforeExecution : Obligations.StepFaultsBeforeExecution := by
  intro s hrun he
  have hpc : s.takeEvent.pc = s.pc := s.takeEvent_pc
  have hword := wordAtPc_takeEvent s
  rw [step_of_step_event hrun he]
  refine ⟨fun h => ?_, fun h => ?_, fun h hdecode => ?_⟩
  · rw [executionStep_unfetchable (by rw [hpc]; exact h.trans (Nat.lt_succ_self _)), hpc, max_eq_left h]
  · rw [executionStep_unfetchable (by rw [hpc, h]; exact le_rfl), hpc, h]; rfl
  · rw [executionStep_unsupported (by rw [hpc]; exact Nat.succ_lt_succ h) (by rwa [hword]), hpc, hword]

/-! ## Faults (R300, R304, R305) -/

/-- A Load completes where the program fits. -/
theorem load_inv {s t : State} {bytes : List Byte} (h : s.load bytes = .next t) :
    bytes.length ≤ 3584 ∧ t = (s.setMem (s.mem.writeAll loadBase bytes)).closeLoad := by
  rcases Nat.lt_or_ge 3584 bytes.length with hlarge | hfits
  · rw [load_refused s hlarge] at h; cases h
  · rw [load_next s hfits] at h; cases h; exact ⟨hfits, rfl⟩

theorem load_ne_fault (s : State) (bytes : List Byte) (f : Fault) : s.load bytes ≠ .fault f := by
  rcases Nat.lt_or_ge 3584 bytes.length with hlarge | hfits
  · simp [load_refused s hlarge]
  · simp [load_next s hfits]

/-- Of a running machine's events only a Step faults. -/
theorem performRunning_fault {e : HostEvent} {s : State} {f : Fault} (h : performRunning e s = .fault f) :
    executionStep s = .fault f := by
  cases e with
  | step => exact h
  | load bytes =>
    rw [performRunning] at h
    split at h
    · exact absurd h (load_ne_fault s bytes f)
    · cases h
  | tick | setKey | rawByte | stop => cases h

theorem after_of_fault {s : State} {f : Fault} (h : step s = .fault f) : s.after = s.recordFault f := by
  have hhost : hostStep s = .fault f := h
  rw [State.after, hhost]

/-- Settles O9: `after` records the fault alone, and only an execution step raises one. -/
theorem faultIsPrecise : Obligations.FaultIsPrecise := by
  refine fun s f h => ⟨after_of_fault h, fun hrun => ?_⟩
  rw [step_eq_perform, perform_of_running (by rwa [State.takeEvent_status])] at h
  simpa using executionStep_fault (performRunning_fault h)

/-- Settles O10: `perform` raises the recorded fault whatever the event, and recording it again changes nothing. -/
theorem faultedIsFinal : Obligations.FaultedIsFinal := by
  intro s f hfault
  have hstep : step s = .fault f := perform_of_faulted (by rwa [State.takeEvent_status]) _
  refine ⟨perform_of_faulted hfault, hstep, ?_⟩
  rw [after_of_fault hstep, State.recordFault, ← hfault]

/-! ## Ticks, keys and Stop (R322, R324, R328) -/

theorem countDown_toNat (b : Byte) : (countDown b).toNat = b.toNat - 1 := by
  unfold countDown
  split
  case isTrue h => rw [h]; rfl
  case isFalse h =>
    have hb : b.toNat ≠ 0 := fun h0 => h (BitVec.eq_of_toNat_eq h0)
    have hlt : b.toNat < 256 := b.isLt
    bv_omega

/-- Settles O43: a Tick is `countDown` of both timers, which is subtraction clamped at 0. -/
theorem tickCountsDown : Obligations.TickCountsDown := by
  intro s later hrun hlist
  refine ⟨{ s with hostEvents := later }.tick, ?_, countDown_toNat s.dt, countDown_toNat s.st, rfl,
    fun r _ => State.reg_of_v rfl r, by simp [keepsSpecials], fun _ => rfl⟩
  rw [step_of_running hrun hlist HostEvent.noConfusion, performRunning]

/-- Settles O44: SetKey writes one field; the key of an input is by cases on the keymap. -/
theorem setKeyWritesKey : Obligations.SetKeyWritesKey := by
  refine ⟨fun s k later hrun hlist => ?_, rfl, fun b => ?_⟩
  · refine ⟨{ s with hostEvents := later }.setKey k, ?_, rfl, rfl, fun r _ => State.reg_of_v rfl r,
      by simp [keepsSpecials], fun _ => rfl⟩
    rw [step_of_running hrun hlist HostEvent.noConfusion, performRunning]
  · cases hk : Config.keymap b <;> simp [keyOfInput, hk]

/-- Settles O47: a Stop stays on the list, and neither a running nor a waiting machine acts on it. -/
theorem stopChangesNothing : Obligations.StopChangesNothing := by
  intro s later hlist hnofault
  rw [step_of_stop hlist]
  cases hstatus : s.status with
  | running => rw [perform_of_running hstatus, performRunning]
  | blocked x => rw [perform_of_blocked hstatus, performBlocked]
  | faulted f => exact absurd hstatus (hnofault f)

/-! ## Waiting for a key (R284, R361) -/

/-- Settles O40: the step is `offerKey` of what the keymap answers, by cases on it. -/
theorem rawByteEndsWait : Obligations.RawByteEndsWait := by
  intro s x b later hblocked hlist
  have hstep : step s = .next ({ s with hostEvents := later }.offerKey x (Config.keymap b)) := by
    rw [step_of_blocked hblocked hlist HostEvent.noConfusion, performBlocked]
  refine ⟨_, hstep, ?_⟩
  cases hk : Config.keymap b with
  | none => exact ⟨rfl, rfl⟩
  | some k =>
    refine ⟨rfl, ?_, rfl, fun r hr => ?_, by simp [keepsSpecials, State.offerKey], fun _ => rfl⟩
    · have hk : (k.setWidth 8).toNat = k.toNat := BitVec.toNat_setWidth_of_le (by decide)
      exact (congrArg BitVec.toNat ((State.setReg_reg _ _ _ _).trans (if_pos rfl))).trans hk
    · exact (State.setReg_reg _ _ _ _).trans (if_neg (by simpa using hr))

/-- Settles O41: a waiting machine acts on a raw byte alone, and that writes no timer and not KEY. -/
theorem blockedDoesNoOtherWork : Obligations.BlockedDoesNoOtherWork := by
  intro s x hblocked
  refine ⟨fun e he => ?_, fun e => ?_⟩
  · rw [perform_of_blocked hblocked]
    cases e with
    | rawByte b => exact absurd rfl (he b)
    | _ => rfl
  · rw [perform_of_blocked hblocked]
    cases e with
    | rawByte b =>
      refine ⟨_, rfl, ?_⟩
      cases Config.keymap b <;> exact ⟨rfl, rfl, rfl⟩
    | _ => exact ⟨s, rfl, rfl, rfl, rfl⟩

/-! ## Load (R320, R353) -/

/-- Settles O45: the step is `load`, which is consecutive writes from 0x200 or the refusal. -/
theorem loadCopiesProgram : Obligations.LoadCopiesProgram := by
  intro s bytes later hrun hload hlist
  have hstep : step s = { s with hostEvents := later }.load bytes := by
    rw [step_of_running hrun hlist HostEvent.noConfusion]
    exact if_pos hload
  refine ⟨fun hfits => ?_, fun hlarge => hstep.trans (load_refused _ hlarge)⟩
  refine ⟨_, hstep.trans (load_next _ hfits), fun j hj => Memory.read_writeAll_inside hj, rfl,
    fun r _ => State.reg_of_v rfl r, by simp [keepsSpecials], fun a ha => Memory.read_writeAll_outside ha⟩

theorem executionStep_loadable {s t : State} (h : executionStep s = .next t) : t.loadable = false := by
  obtain ⟨-, i, -, hexec⟩ := executionStep_next h
  obtain ⟨-, rfl⟩ := exec_next_iff.mp hexec
  exact nextState_loadable i s.closeLoad

theorem offerKey_loadable (s : State) (x : Nibble) (mapped : Option Nibble) :
    (s.offerKey x mapped).loadable = s.loadable := by
  cases mapped <;> rfl

theorem performRunning_loadable {e : HostEvent} {s t : State} (hs : s.loadable = false)
    (h : performRunning e s = .next t) : t.loadable = false := by
  cases e with
  | step => exact executionStep_loadable h
  | load bytes =>
    rw [performRunning, hs] at h
    cases h
    exact hs
  | tick | setKey | rawByte | stop => cases h; exact hs

theorem performBlocked_loadable {x : Nibble} {e : HostEvent} {s t : State} (hs : s.loadable = false)
    (h : performBlocked x e s = .next t) : t.loadable = false := by
  cases e with
  | rawByte b => cases h; rwa [offerKey_loadable]
  | load | step | tick | setKey | stop => cases h; exact hs

/-- Settles O46: an execution step closes the Load, and no event opens it again, by cases on the status. -/
theorem loadOnlyBeforeFirstStep : Obligations.LoadOnlyBeforeFirstStep := by
  refine ⟨fun s t h => executionStep_loadable h, fun s t hs h => ?_, fun s bytes hrun hs => ?_⟩
  · have hload : s.takeEvent.loadable = false := by rwa [State.takeEvent_loadable]
    rw [step_eq_perform] at h
    cases hstatus : s.takeEvent.status with
    | running => exact performRunning_loadable hload (perform_of_running hstatus _ ▸ h)
    | blocked x => exact performBlocked_loadable hload (perform_of_blocked hstatus _ ▸ h)
    | faulted f => rw [perform_of_faulted hstatus] at h; cases h
  · rw [perform_of_running hrun, performRunning, hs]; rfl

/-! ## PC over an execution step (R36, R37, R141, R362) -/

/-- No target but that of 00EE is above V0 + NNN of the largest operands (R37). -/
theorem exec_next_pc_le {i : Instr} {s t : State} (hret : i ≠ .ret) (hpc : s.pc.toNat ≤ 0xFFE)
    (h : exec i s = .next t) : t.pc.toNat ≤ 0x10FE := by
  have htarget := nextPc.1 i s t h
  have hadd2 : (s.pc + 2).toNat ≤ 0x1000 := by bv_omega
  have hadd4 : (s.pc + 4).toNat ≤ 0x1002 := by bv_omega
  cases i with
  | ret => exact absurd rfl hret
  | jp nnn | call nnn =>
    have hpct : t.pc.toNat = nnn.toNat := htarget
    have hnnn : nnn.toNat < 4096 := nnn.isLt
    omega
  | jpV0 nnn =>
    have hpct : t.pc.toNat = (s.reg 0x0).toNat + nnn.toNat := htarget
    have hnnn : nnn.toNat < 4096 := nnn.isLt
    have hv0 : (s.reg 0x0).toNat < 256 := (s.reg 0x0).isLt
    omega
  | seImm | sneImm | seReg | sneReg | skp | sknp => obtain hpct | hpct := htarget <;> rw [hpct] <;> omega
  | ldVxK =>
    have hpct : t.pc = s.pc := htarget
    rw [hpct]; omega
  | _ =>
    have hpct : t.pc = s.pc + 2 := htarget
    rw [hpct]; omega

/-- Settles O58: the fetch bounds the old PC, and the form of the instruction the new one. -/
theorem completedStepPcRange : Obligations.CompletedStepPcRange := by
  intro s t h
  obtain ⟨hpc, i, hdecode, hexec⟩ := executionStep_next h
  have hrange : s.pc.toNat ≤ 0xFFE := by unfold memorySize at hpc; omega
  refine ⟨hrange, fun hret => exec_next_pc_le (s := s.closeLoad) ?_ hrange hexec⟩
  rintro rfl
  exact hret hdecode

/-- Settles O60: the jump's target widened is PC itself. -/
theorem idleEndLoops : Obligations.IdleEndLoops := by
  intro s hidle hnone
  simp only [State.idleEnd, Bool.and_eq_true, decide_eq_true_eq] at hidle
  obtain ⟨⟨hrun, hpc⟩, hdecode⟩ := hidle
  have htarget : zext16 (s.pc.setWidth 12) = s.pc := by
    refine BitVec.eq_of_toNat_eq ?_
    rw [zext16_toNat, BitVec.toNat_setWidth]
    omega
  rw [step_of_no_event hnone, perform_of_running hrun, performRunning,
    executionStep_of_decode (Nat.succ_lt_succ hpc) hdecode]
  exact exec_next_iff.mpr ⟨rfl, by rw [nextState, htarget]; rfl⟩

end Sys2Proof.Machine
end

section
/-!
SUPPORT. Reset and the invariant (R45, R70, R283, R350): what memory holds after reset, that reset meets the invariant
and that every step keeps it.
-/

namespace Sys2Proof.Machine

/-! ## Reset (R45, R350) -/

theorem reset_reg (r : Nibble) : State.reset.reg r = 0 := by simp [State.reg, State.reset]

/-- Settles O48: the fields of `State.reset`. -/
theorem resetRegisters : Obligations.ResetRegisters :=
  ⟨reset_reg, rfl, rfl, rfl, rfl, rfl, rfl, rfl⟩

theorem unlisted_eq_zero {a : Nat} (ha : 80 ≤ a) : unlisted a = 0 := by
  have hnone : defaultFont[a]? = none := List.getElem?_eq_none ha
  rw [unlisted, hnone, Option.getD_none]

theorem resetWith_mem_read (font : List Byte) (a : Nat) :
    (State.resetWith font).mem.read a = ((font.take 80)[a]?).getD (unlisted a) := by
  rw [State.resetWith, State.setMem_mem, Memory.read_writeAll, if_pos (Nat.zero_le a)]; rfl

/-- The default font is what unlisted cells read as, so writing it lists nothing. -/
theorem resetWith_defaultFont : State.resetWith defaultFont = State.reset := by
  have hmem : (State.resetWith defaultFont).mem = [] := by
    refine Memory.eq_of_read (low := 0) (wf_resetWith defaultFont) rfl fun a _ => ?_
    have hread : (State.resetWith defaultFont).mem.read a = (defaultFont[a]?).getD (unlisted a) :=
      resetWith_mem_read defaultFont a
    rw [hread, Memory.read, unlisted]
    cases defaultFont[a]? <;> rfl
  exact congrArg State.reset.setMem hmem

/-- Settles O49: a read of the written font, and of an unlisted byte past it. -/
theorem resetMemoryHoldsFont : Obligations.ResetMemoryHoldsFont := by
  refine ⟨fun font hlen => ?_, resetWith_defaultFont⟩
  have htake : font.take 80 = font := List.take_of_length_le hlen.le
  refine ⟨fun a ha => ?_, fun a ha => ?_, wf_resetWith font, rfl⟩
  · rw [resetWith_mem_read, htake, List.getElem?_eq_getElem ha, Option.getD_some]
  · rw [resetWith_mem_read, htake, List.getElem?_eq_none (by omega), Option.getD_none, unlisted_eq_zero ha]

/-! ## The invariant at rest -/

/-- A machine that does not wait meets the invariant when its memory is canonical. -/
theorem inv_of_running {s : State} (hwf : s.mem.wf = true) (hrun : s.status = .running) :
    s.Inv ∧ ∀ f, s.status ≠ .faulted f := by
  refine ⟨⟨hwf, fun x hblocked => ?_⟩, fun f hfaulted => ?_⟩
  · rw [hrun] at hblocked; cases hblocked
  · rw [hrun] at hfaulted; cases hfaulted

/-- Settles O51: memory is canonical after reset, and the machine runs. -/
theorem resetMeetsInvariant : Obligations.ResetMeetsInvariant :=
  ⟨(inv_of_running rfl rfl).1, fun font => (inv_of_running (wf_resetWith font) rfl).1⟩

theorem inv_takeEvent {s : State} (h : s.Inv) : s.takeEvent.Inv := by
  simpa [State.Inv, State.wordAtPc] using h

/-! ## Every instruction keeps it -/

/-- A completed instruction stores inside memory, so the canonical form is kept (R70). -/
theorem wf_of_exec_next {i : Instr} {s t : State} (hwf : s.mem.wf = true) (h : exec i s = .next t) :
    t.mem.wf = true := by
  obtain ⟨-, rfl⟩ := exec_next_iff.mp h
  cases i with
  | cls =>
    rw [nextState, State.advance_mem, State.setMem_mem]
    exact clearFramebuffer_wf hwf
  | drw x y n => exact drawRows_wf _ _ _ _ hwf
  | call nnn => exact Memory.wf_writeAll hwf (exec_call_inv h)
  | ldB x => exact Memory.wf_writeAll hwf (exec_ldB_inv h)
  | storeRegs x => exact Memory.wf_writeAll hwf (by rw [State.regsBelow_length]; exact exec_storeRegs_inv h)
  | _ => simpa [nextState] using hwf

/-- A completed execution step keeps the invariant: only FX0A blocks, and it leaves PC at itself. -/
theorem inv_of_executionStep {s t : State} (hwf : s.mem.wf = true) (hrun : s.status = .running)
    (h : executionStep s = .next t) : t.Inv ∧ ∀ f, t.status ≠ .faulted f := by
  obtain ⟨hpc, i, hdecode, hexec⟩ := executionStep_next h
  have hwft : t.mem.wf = true := wf_of_exec_next (s := s.closeLoad) hwf hexec
  obtain ⟨-, rfl⟩ := exec_next_iff.mp hexec
  obtain hstatus | ⟨x, rfl, hstatus⟩ := nextState_status i s.closeLoad
  · exact inv_of_running hwft (hstatus.trans hrun)
  · refine ⟨⟨hwft, fun y hy => ?_⟩, fun f => by simp [hstatus]⟩
    obtain rfl : x = y := Status.blocked.inj (hstatus.symm.trans hy)
    exact ⟨rfl, hpc, hdecode⟩

/-! ## Every event keeps it -/

theorem inv_of_load {s t : State} {bytes : List Byte} (hwf : s.mem.wf = true) (hrun : s.status = .running)
    (h : s.load bytes = .next t) : t.Inv ∧ ∀ f, t.status ≠ .faulted f := by
  obtain ⟨hfits, rfl⟩ := load_inv h
  have hend : loadBase + bytes.length ≤ memorySize := by unfold loadBase memorySize; omega
  exact inv_of_running (Memory.wf_writeAll hwf hend) hrun

theorem inv_of_performRunning {e : HostEvent} {s t : State} (hwf : s.mem.wf = true) (hrun : s.status = .running)
    (h : performRunning e s = .next t) : t.Inv ∧ ∀ f, t.status ≠ .faulted f := by
  cases e with
  | step => exact inv_of_executionStep hwf hrun h
  | load bytes =>
    rw [performRunning] at h
    split at h
    · exact inv_of_load hwf hrun h
    · cases h; exact inv_of_running hwf hrun
  | tick | setKey | rawByte | stop => cases h; exact inv_of_running hwf hrun

/-- A waiting machine goes on waiting at its FX0A, or a mapped byte makes it run again. -/
theorem inv_of_performBlocked {x : Nibble} {e : HostEvent} {s t : State} (hinv : s.Inv)
    (hblocked : s.status = .blocked x) (h : performBlocked x e s = .next t) :
    t.Inv ∧ ∀ f, t.status ≠ .faulted f := by
  have hwaits : s.Inv ∧ ∀ f, s.status ≠ .faulted f := ⟨hinv, fun f => by simp [hblocked]⟩
  cases e with
  | rawByte b =>
    cases h
    cases Config.keymap b with
    | none => exact hwaits
    | some k => exact inv_of_running hinv.1 rfl
  | load | step | tick | setKey | stop => cases h; exact hwaits

/-- Settles O50: taking the event off the list keeps the invariant, and so does performing it, by cases on the
status. -/
theorem stepKeepsInvariant : Obligations.StepKeepsInvariant := by
  intro s t hinv h
  have hinv' := inv_takeEvent hinv
  rw [step_eq_perform] at h
  cases hstatus : s.takeEvent.status with
  | running => exact inv_of_performRunning hinv'.1 hstatus (perform_of_running hstatus _ ▸ h)
  | blocked x => exact inv_of_performBlocked hinv' hstatus (perform_of_blocked hstatus _ ▸ h)
  | faulted f => rw [perform_of_faulted hstatus] at h; cases h

end Sys2Proof.Machine
end

section
/-!
SUPPORT. Instructions on registers, PC and the stack: logic and the random byte (42_arith_logic.md), control transfer
(40_control_flow.md), the register skips (41_skips.md) and the wait for a key (45_timers_keys.md).
-/

namespace Sys2Proof

/-! ## The two bytes of a word as a number (R77) -/

theorem hi_lo_toNat (w : Word) : (Word.hi w).toNat * 256 + (Word.lo w).toNat = w.toNat := by
  have hw : w.toNat < 65536 := w.isLt
  rw [Word.hi, Word.lo, BitVec.extractLsb'_toNat, BitVec.extractLsb'_toNat, Nat.shiftRight_eq_div_pow]
  omega

theorem wordOfBytes_toNat (hi lo : Byte) : (wordOfBytes hi lo).toNat = hi.toNat * 256 + lo.toNat := by
  simpa using (hi_lo_toNat (wordOfBytes hi lo)).symm

namespace Machine

/-! ## Logic and the random byte (R183-R185, R191) -/

/-- An instruction that writes V[X] alone, with a property of the result in place of the result. -/
theorem exec_setReg_of {i : Instr} {x : Nibble} {s : State} {r : Byte} (p : Byte → Prop)
    (hexec : exec i s = .next (s.setReg x r).advance) (hr : p r) :
    ∃ t, exec i s = .next t ∧ p (t.reg x) ∧ t.pc = s.pc + 2 ∧
      keepsRegsBut [x] s t ∧ keepsSpecials s t ∧ keepsMemory s t := by
  obtain ⟨t, ht, hx, hframe⟩ := exec_setReg hexec
  exact ⟨t, ht, hx ▸ hr, hframe⟩

/-- Settles O14: each is `setReg` of the bitwise operation, read bit by bit. -/
theorem bitwiseOperations : Obligations.BitwiseOperations := by
  refine ⟨fun _ h => decode_of_op8 h rfl, fun _ h => decode_of_op8 h rfl, fun _ h => decode_of_op8 h rfl,
    fun x y s => ⟨?_, ?_, ?_⟩⟩
  · exact exec_setReg_of (fun b => ∀ k < 8, b.getLsbD k = ((s.reg x).getLsbD k || (s.reg y).getLsbD k)) rfl
      fun _ _ => BitVec.getLsbD_or
  · exact exec_setReg_of (fun b => ∀ k < 8, b.getLsbD k = ((s.reg x).getLsbD k && (s.reg y).getLsbD k)) rfl
      fun _ _ => BitVec.getLsbD_and
  · exact exec_setReg_of (fun b => ∀ k < 8, b.getLsbD k = ((s.reg x).getLsbD k ^^ (s.reg y).getLsbD k)) rfl
      fun _ _ => BitVec.getLsbD_xor

/-- Settles O18: the drawn byte under the mask, with one draw counted. -/
theorem randomByteUnderMask : Obligations.RandomByteUnderMask := by
  refine ⟨fun _ => decode_rnd, fun x nn s => ?_⟩
  have hx : (nextState (.rnd x nn) s).reg x = Config.rand s.draws &&& nn := by simp [nextState, State.drawnByte]
  refine ⟨nextState (.rnd x nn) s, rfl, fun k _ => ?_, rfl, fun hnn => ?_, rfl, keepsRegsBut_nextState (.rnd x nn) s,
    by simp [keepsSpecials, nextState], fun _ => rfl⟩
  · rw [hx, BitVec.getLsbD_and]
  · rw [hx, hnn]; exact BitVec.and_zero

/-! ## Jumps (R141, R143) -/

theorem jump_self (s : State) : s.jump s.pc = s := rfl

theorem keepsSpecials_jump (s : State) (target : Word) : keepsSpecials s (s.jump target) := by simp [keepsSpecials]

/-- Settles O19: 1NNN is `jump` to NNN widened, and a jump to PC is the same state. -/
theorem jumpToAddress : Obligations.JumpToAddress := by
  refine ⟨fun _ => decode_jp, fun nnn s => ⟨s.jump (zext16 nnn), rfl, zext16_toNat nnn, fun hself => ?_, fun htop => ?_,
    fun _ _ => rfl, keepsSpecials_jump s _, fun _ => rfl⟩⟩
  · have htarget : zext16 nnn = s.pc := BitVec.eq_of_toNat_eq ((zext16_toNat nnn).trans hself.symm)
    rw [htarget, jump_self]
  · subst htop
    have hpast : memorySize ≤ (zext16 0xFFF).toNat + 1 := by decide
    exact State.fetch_error hpast

/-- Settles O20: BNNN is `jump` to a 16-bit sum that does not wrap. -/
theorem jumpWithOffset : Obligations.JumpWithOffset :=
  ⟨fun _ => decode_jpV0, fun nnn s => ⟨nextState (.jpV0 nnn) s, rfl, offsetTarget_toNat _ nnn,
    fun htop => State.fetch_error (Nat.succ_le_succ htop), fun _ _ => rfl, keepsSpecials_jump s _, fun _ => rfl⟩⟩

/-! ## The stack (R140, R142, R144) -/

section
variable (nnn : Addr) (s : State)

theorem nextState_call_read_hi : (nextState (.call nnn) s).mem.read s.pushSlot = Word.hi s.returnAddress :=
  Memory.read_writeAll_inside (k := 0) (by simp)

theorem nextState_call_read_lo : (nextState (.call nnn) s).mem.read (s.pushSlot + 1) = Word.lo s.returnAddress :=
  Memory.read_writeAll_inside (k := 1) (by simp)

end

/-- Settles O21: the two bytes written at the slot are the return address. -/
theorem callPushesReturnAddress : Obligations.CallPushesReturnAddress := by
  refine ⟨fun _ => decode_call, fun nnn s => ⟨pushSlot_eq s, fun hslot => ?_, fun hslot => ?_, fun hslot => ?_⟩⟩
  · refine ⟨nextState (.call nnn) s, exec_call_next nnn (Nat.succ_lt_succ hslot), ?_, rfl, zext16_toNat nnn,
      fun _ _ => State.reg_of_v rfl _, by simp [keepsSpecials, nextState, State.pushedSp],
      keepsMemoryOutside_nextState (.call nnn) s⟩
    rw [nextState_call_read_hi, nextState_call_read_lo, hi_lo_toNat, State.returnAddress]
    exact BitVec.toNat_add _ _
  · rw [exec_call_fault nnn (by rw [hslot]; exact le_rfl), hslot]; rfl
  · rw [exec_call_fault nnn (hslot.trans (Nat.lt_succ_self _)), max_eq_left hslot]

/-- Settles O22: the two bytes at the slot, high byte first, are the target. -/
theorem returnPopsAddress : Obligations.ReturnPopsAddress := by
  refine ⟨rfl, fun s => ⟨rfl, fun hslot => ?_, fun hslot => ?_, fun hslot => ?_⟩⟩
  · exact ⟨nextState .ret s, exec_ret_next (Nat.succ_lt_succ hslot), wordOfBytes_toNat _ _, rfl,
      fun _ _ => State.reg_of_v rfl _, by simp [keepsSpecials, nextState], fun _ => rfl⟩
  · rw [exec_ret_fault (by rw [hslot]; exact le_rfl), hslot]; rfl
  · rw [exec_ret_fault (hslot.trans (Nat.lt_succ_self _)), max_eq_left hslot]

/-- Settles O23: the return pops the slot that the call pushed to, and reads the return address there. -/
theorem returnUndoesCall : Obligations.ReturnUndoesCall := by
  intro nnn s t u hcall hsp hbytes
  have hslot : s.pushSlot + 1 < memorySize := exec_call_inv hcall
  obtain ⟨-, rfl⟩ := exec_next_iff.mp hcall
  have hpop : u.popSlot = s.pushSlot := congrArg BitVec.toNat hsp
  have hhi : u.mem.read u.popSlot = Word.hi s.returnAddress := by
    rw [hpop]; exact (hbytes 0 (by decide)).trans (nextState_call_read_hi nnn s)
  have hlo : u.mem.read (u.popSlot + 1) = Word.lo s.returnAddress := by
    rw [hpop]; exact (hbytes 1 (by decide)).trans (nextState_call_read_lo nnn s)
  refine ⟨nextState .ret u, exec_ret_next (hpop ▸ hslot), ?_, ?_⟩
  · rw [nextState, State.jump_pc, hhi, hlo, wordOfBytes_hi_lo]; rfl
  · have hspu : u.sp = s.sp + 2 := hsp
    rw [nextState, State.jump_sp, hspu]
    exact BitVec.add_sub_cancel _ _

/-! ## The register skips (R162, R163) -/

/-- Settles O25: both are `skipIf` on the comparison; the other N are in the Unsupported space. -/
theorem skipsOnRegisters : Obligations.SkipsOnRegisters := by
  refine ⟨fun _ => decode_seReg, fun w hop hn => (unsupportedSpace w).mpr (.inr (.inl ⟨hop, hn⟩)),
    fun _ => decode_sneReg, fun x y s => ⟨?_, ?_⟩⟩
  · exact exec_skip_if rfl beq_iff_eq
  · exact exec_skip_unless rfl bne_iff_ne

/-! ## The wait for a key (R283) -/

/-- Settles O39: FX0A writes the status and no other field. -/
theorem waitForKeyBlocks : Obligations.WaitForKeyBlocks :=
  ⟨fun _ h => decode_of_opF h rfl, fun x s => ⟨nextState (.ldVxK x) s, rfl, rfl, rfl, fun _ _ => State.reg_of_v rfl _,
    by simp [keepsSpecials, nextState], fun _ => rfl⟩⟩

end Machine

end Sys2Proof
end

section
/-!
SUPPORT. Instructions on memory (43_index_memory.md) and the display (44_display.md): what each leaves in memory, byte
by byte and pixel by pixel, and what a later fetch sees of it (R83, R357).
-/

namespace Sys2Proof.Machine

/-! ## What memory holds after FX33 and FX55 (R223, R224) -/

theorem nextState_ldB_read (x : Nibble) (s : State) {k : Nat} (hk : k < 3) :
    (nextState (.ldB x) s).mem.read (s.indexAddr + k) = (decimalDigits (s.reg x))[k] :=
  Memory.read_writeAll_inside hk

theorem nextState_storeRegs_read {x r : Nibble} (hr : r.toNat ≤ x.toNat) (s : State) :
    (nextState (.storeRegs x) s).mem.read (s.indexAddr + r.toNat) = s.reg r := by
  have hcount : r.toNat < regCount x := Nat.lt_succ_of_le hr
  have hlen : r.toNat < (s.regsBelow (regCount x)).length := by rwa [State.regsBelow_length]
  refine (Memory.read_writeAll_inside hlen).trans ?_
  simp [State.regsBelow]

/-- Settles O30: the three digits are written from I on, inside memory. -/
theorem storeDecimalDigits : Obligations.StoreDecimalDigits := by
  refine ⟨fun _ h => decode_of_opF h rfl, fun x s => ⟨rfl, fun hin => ?_, fun hout => ?_⟩⟩
  · refine ⟨nextState (.ldB x) s, exec_ldB_next x (Nat.succ_le_succ hin), ?_, ?_, ?_, rfl, fun _ _ => rfl,
      by simp [keepsSpecials, nextState], keepsMemoryOutside_nextState (.ldB x) s⟩
    · exact congrArg BitVec.toNat (nextState_ldB_read x s (k := 0) (by decide))
    · exact congrArg BitVec.toNat (nextState_ldB_read x s (k := 1) (by decide))
    · exact congrArg BitVec.toNat (nextState_ldB_read x s (k := 2) (by decide))
  · exact exec_ldB_fault x (Nat.succ_lt_succ hout)

/-- Settles O31: the registers are written from I on, inside memory. -/
theorem storeRegisters : Obligations.StoreRegisters := by
  refine ⟨fun _ h => decode_of_opF h rfl, fun x s => ⟨rfl, fun hin => ?_, fun hout => ?_⟩⟩
  · exact ⟨nextState (.storeRegs x) s, exec_storeRegs_next x (Nat.succ_le_succ hin),
      fun r hr => nextState_storeRegs_read hr s, rfl, fun _ _ => rfl, by simp [keepsSpecials, nextState],
      keepsMemoryOutside_nextState (.storeRegs x) s⟩
  · exact exec_storeRegs_fault x (Nat.succ_lt_succ hout)

/-- Settles O32: the registers are read from I on, inside memory. -/
theorem loadRegisters : Obligations.LoadRegisters := by
  refine ⟨fun _ h => decode_of_opF h rfl, fun x s => ⟨rfl, fun hin => ?_, fun hout => ?_⟩⟩
  · exact ⟨nextState (.loadRegs x) s, exec_loadRegs_next x (Nat.succ_le_succ hin),
      fun r => nextState_loadRegs_reg x r s, by simp [nextState], by simp [keepsSpecials, nextState],
      fun _ => by simp [nextState]⟩
  · exact exec_loadRegs_fault x (Nat.succ_lt_succ hout)

/-! ## Pixels and 00E0 (R251, R252) -/

/-- Settles O36: a write to one bit of one byte. -/
theorem setPixelWritesOnePixel : Obligations.SetPixelWritesOnePixel := by
  refine fun m x y p hx _ => ⟨fun px py hpx _ => pixel_setPixel m hx hpx p, fun a ha => ?_⟩
  exact (Memory.read_write m (pixelAddr x y) _ a).trans (if_neg ha)

theorem nextState_cls_read (s : State) {a : Nat} (hlow : 0x050 ≤ a) (hhigh : a ≤ 0x14F) :
    (nextState .cls s).mem.read a = 0 := by
  have hfb : framebufferBase ≤ a ∧ a < framebufferBase + framebufferSize := ⟨hlow, Nat.lt_succ_of_le hhigh⟩
  rw [nextState, State.advance_mem, State.setMem_mem, clearFramebuffer_read, if_pos hfb]

theorem nextState_cls_pixel (s : State) {x y : Nat} (hx : x < 64) (hy : y < 32) :
    pixel (nextState .cls s).mem x y = false := by
  obtain ⟨hlow, hhigh⟩ := pixelAddr_range hx hy
  rw [pixel, nextState_cls_read s hlow (Nat.le_of_lt_succ hhigh)]
  exact BitVec.getLsbD_zero

/-- Settles O33: every framebuffer byte is 0, so every pixel is off and every cell blank. -/
theorem clearDisplay : Obligations.ClearDisplay := by
  refine ⟨rfl, fun s => ⟨nextState .cls s, exec_next_iff.mpr ⟨rfl, rfl⟩, fun _ => nextState_cls_read s,
    fun _ _ => nextState_cls_pixel s, fun c p hc hp => ?_, nextPc.1 .cls s _ (exec_next_iff.mpr ⟨rfl, rfl⟩),
    keepsRegsBut_nextState .cls s, ?_, keepsMemoryOutside_nextState .cls s⟩⟩
  · rw [viewCell, nextState_cls_pixel s hc (by omega), nextState_cls_pixel s hc (by omega), glyphOf]
  · obtain ⟨m, hm⟩ := nextState_cls s
    simp [keepsSpecials, hm]

/-! ## DXYN (R253, R254) -/

section
variable (x y n : Nibble) (s : State)

/-- The bit of the sprite that a DXYN in this state draws on a pixel. -/
def drawnBit (px py : Nat) : Bool :=
  spriteBit (spriteAt s n.toNat) ((s.reg x).toNat % 64) ((s.reg y).toNat % 32) px py

theorem nextState_drw_pixel {px py : Nat} (hpx : px < 64) (hpy : py < 32) :
    pixel (nextState (.drw x y n) s).mem px py = (pixel s.mem px py ^^ drawnBit x y n s px py) :=
  drawRows_pixel ⟨s.mem, false⟩ _ _ _ hpx hpy

theorem nextState_drw_flag : (nextState (.drw x y n) s).reg 0xF = flagByte (drawn x y n s).hit := by
  simp [nextState, flagReg]

theorem drawn_hit : (drawn x y n s).hit = true ↔
    ∃ px py, px < 64 ∧ py < 32 ∧ drawnBit x y n s px py = true ∧ pixel s.mem px py = true :=
  (drawRows_hit ⟨s.mem, false⟩ _ _ _).trans (or_iff_right Bool.false_ne_true)

theorem keepsSpecials_drw : keepsSpecials s (nextState (.drw x y n) s) := by simp [keepsSpecials, nextState]

end

/-- Settles O34: the pixels and the hit of the drawn canvas; a hit is a set sprite bit on a pixel that is on, which goes
off. -/
theorem drawSprite : Obligations.DrawSprite := by
  refine ⟨fun _ => decode_drw, fun x y n s => ⟨rfl, fun hin => ?_, fun hn hout => ?_⟩⟩
  · have hread : n.toNat = 0 ∨ s.indexAddr + n.toNat ≤ memorySize := by
      unfold memorySize
      exact hin.imp (fun h => by rw [h]; rfl) (by omega)
    refine ⟨nextState (.drw x y n) s, exec_drw_next x y n hread, fun _ _ => nextState_drw_pixel x y n s, ?_, rfl,
      keepsRegsBut_nextState (.drw x y n) s, keepsSpecials_drw x y n s, keepsMemoryOutside_nextState (.drw x y n) s⟩
    rw [nextState_drw_flag]
    cases hhit : (drawn x y n s).hit with
    | true =>
      obtain ⟨px, py, hpx, hpy, hbit, hon⟩ := (drawn_hit x y n s).mp hhit
      refine .inl ⟨rfl, px, py, hpx, hpy, hon, ?_⟩
      rw [nextState_drw_pixel x y n s hpx hpy, hon, hbit]; rfl
    | false =>
      refine .inr ⟨rfl, fun px py hpx hpy hon => ?_⟩
      have hbit : drawnBit x y n s px py ≠ true := fun hbit =>
        Bool.false_ne_true (hhit.symm.trans ((drawn_hit x y n s).mpr ⟨px, py, hpx, hpy, hbit, hon⟩))
      rw [nextState_drw_pixel x y n s hpx hpy, hon, Bool.eq_false_of_not_eq_true hbit]; rfl
  · have h0 : n.toNat ≠ 0 := fun h => hn (BitVec.eq_of_toNat_eq h)
    exact exec_drw_fault x y n h0 (by unfold memorySize; omega)

/-- A draw changes no byte of a sprite outside the framebuffer, so the same sprite is drawn again. -/
theorem drawnBit_nextState_drw {x y n : Nibble} {s : State} (hx : x ≠ 0xF) (hy : y ≠ 0xF)
    (hsprite : s.index.toNat + n.toNat ≤ 0x050 ∨ 0x150 ≤ s.index.toNat) (px py : Nat) :
    drawnBit x y n (nextState (.drw x y n) s) px py = drawnBit x y n s px py := by
  have hregs := keepsRegsBut_nextState (.drw x y n) s
  have hindex : (nextState (.drw x y n) s).indexAddr = s.indexAddr :=
    congrArg BitVec.toNat (keepsSpecials_drw x y n s).1
  have hbytes : spriteAt (nextState (.drw x y n) s) n.toNat = spriteAt s n.toNat := by
    refine List.map_congr_left fun r hr => ?_
    have hr : r < n.toNat := List.mem_range.mp hr
    rw [hindex]
    refine keepsMemoryOutside_nextState (.drw x y n) s _ ?_
    change s.index.toNat + r < 0x050 ∨ 0x150 ≤ s.index.toNat + r
    omega
  rw [drawnBit, drawnBit, hbytes, hregs x (by simpa [writtenRegs, flagReg] using hx),
    hregs y (by simpa [writtenRegs, flagReg] using hy)]

theorem flagByte_eq_one_iff (c : Bool) : flagByte c = 1 ↔ c = true := by cases c <;> simp [flagByte]

/-- Settles O35: the second draw draws the same bits, and inverting a pixel twice restores it; on a blank screen its
hits are the pixels that the first one drew. -/
theorem drawTwiceRestores : Obligations.DrawTwiceRestores := by
  intro x y n s t hx hy hsprite h
  obtain ⟨hnone, rfl⟩ := exec_next_iff.mp h
  have hbit := drawnBit_nextState_drw hx hy hsprite
  have hindex : (nextState (.drw x y n) s).index = s.index := (keepsSpecials_drw x y n s).1
  have hagain : faultAddress (.drw x y n) (nextState (.drw x y n) s) = none := by
    rw [faultAddress, hindex]; exact hnone
  refine ⟨_, exec_next_iff.mpr ⟨hagain, rfl⟩, fun px py hpx hpy => ?_, fun hblank => ⟨?_, ?_⟩⟩
  · rw [nextState_drw_pixel _ _ _ _ hpx hpy, nextState_drw_pixel _ _ _ _ hpx hpy, hbit, Bool.xor_assoc, Bool.xor_self,
      Bool.xor_false]
  · have hhit : (drawn x y n s).hit ≠ true := fun hhit => by
      obtain ⟨px, py, hpx, hpy, -, hon⟩ := (drawn_hit x y n s).mp hhit
      exact Bool.false_ne_true ((hblank px py hpx hpy).symm.trans hon)
    rw [nextState_drw_flag, Bool.eq_false_of_not_eq_true hhit]; rfl
  · rw [nextState_drw_flag, flagByte_eq_one_iff, drawn_hit]
    refine exists_congr fun px => exists_congr fun py => and_congr_right fun hpx => and_congr_right fun hpy => ?_
    rw [hbit, nextState_drw_pixel x y n s hpx hpy, hblank px py hpx hpy, Bool.false_xor, and_self]; rfl

/-! ## What a fetch sees (R83, R357) -/

section
variable {s t u : State} (hmem : u.mem = t.mem)
include hmem

theorem fetch_of_mem {a : Nat} {hi lo : Byte} (hpc : u.pc.toNat = a) (ha : a + 1 < memorySize)
    (hhi : t.mem.read a = hi) (hlo : t.mem.read (a + 1) = lo) : u.fetch = .ok (wordOfBytes hi lo) := by
  subst hpc
  rw [State.fetch_ok ha, hmem, hhi, hlo]

theorem fetch_after_call {nnn : Addr} (h : exec (.call nnn) s = .next t) (hpc : u.pc.toNat = s.pushSlot) :
    u.fetch = .ok (s.pc + 2) := by
  have hslot := exec_call_inv h
  obtain ⟨-, rfl⟩ := exec_next_iff.mp h
  have hfetch := fetch_of_mem hmem hpc hslot (nextState_call_read_hi nnn s) (nextState_call_read_lo nnn s)
  rwa [wordOfBytes_hi_lo] at hfetch

theorem fetch_after_ldB {x : Nibble} (h : exec (.ldB x) s = .next t) {k : Nat} (hk : k + 1 < 3)
    (hpc : u.pc.toNat = s.indexAddr + k) :
    u.fetch =
      .ok (wordOfBytes ((decimalDigits (s.reg x))[k]'(Nat.lt_of_succ_lt hk)) (decimalDigits (s.reg x))[k + 1]) := by
  have hin := exec_ldB_inv h
  obtain ⟨-, rfl⟩ := exec_next_iff.mp h
  exact fetch_of_mem hmem hpc (by omega) (nextState_ldB_read x s (Nat.lt_of_succ_lt hk)) (nextState_ldB_read x s hk)

theorem fetch_after_storeRegs {x k : Nibble} (h : exec (.storeRegs x) s = .next t) (hk : k.toNat < x.toNat)
    (hpc : u.pc.toNat = s.indexAddr + k.toNat) : u.fetch = .ok (wordOfBytes (s.reg k) (s.reg (k + 1))) := by
  have hin : s.indexAddr + (x.toNat + 1) ≤ memorySize := exec_storeRegs_inv h
  obtain ⟨-, rfl⟩ := exec_next_iff.mp h
  have hsucc : (k + 1).toNat = k.toNat + 1 := by bv_omega
  have hlo := nextState_storeRegs_read (hsucc.trans_le hk) s
  rw [hsucc] at hlo
  exact fetch_of_mem hmem hpc (by omega) (nextState_storeRegs_read hk.le s) hlo

theorem fetch_after_cls (h : exec .cls s = .next t) (hlow : 0x050 ≤ u.pc.toNat) (hhigh : u.pc.toNat + 1 ≤ 0x14F) :
    u.fetch = .ok 0x0000 := by
  obtain ⟨-, rfl⟩ := exec_next_iff.mp h
  exact fetch_of_mem hmem rfl (Nat.lt_of_le_of_lt hhigh (by decide)) (nextState_cls_read s hlow (by omega))
    (nextState_cls_read s (by omega) hhigh)

/-- A pixel drawn is seen in the high byte of the word at its address, and in the low byte of the word before it. -/
theorem fetch_after_drw {x y n : Nibble} (h : exec (.drw x y n) s = .next t) {px py : Nat} (hpx : px < 64)
    (hpy : py < 32) :
    (u.pc.toNat = pixelAddr px py →
      ∃ w, u.fetch = .ok w ∧ (Word.hi w).getLsbD (pixelBit px) = (pixel s.mem px py ^^ drawnBit x y n s px py)) ∧
    (u.pc.toNat + 1 = pixelAddr px py →
      ∃ w, u.fetch = .ok w ∧ (Word.lo w).getLsbD (pixelBit px) = (pixel s.mem px py ^^ drawnBit x y n s px py)) := by
  obtain ⟨-, rfl⟩ := exec_next_iff.mp h
  obtain ⟨-, hend⟩ := pixelAddr_range hpx hpy
  have hpixel := nextState_drw_pixel x y n s hpx hpy
  refine ⟨fun hpc => ⟨_, fetch_of_mem hmem hpc ?_ rfl rfl, ?_⟩, fun hpc => ⟨_, fetch_of_mem hmem rfl ?_ rfl rfl, ?_⟩⟩
  · exact Nat.lt_of_le_of_lt hend (by decide)
  · rw [hi_wordOfBytes]; exact hpixel
  · exact Nat.lt_of_le_of_lt hpc.le (hend.trans (by decide))
  · rw [lo_wordOfBytes, hpc]; exact hpixel

theorem fetch_after_load {bytes : List Byte} (h : s.load bytes = .next t) {j : Nat} (hj : j + 1 < bytes.length)
    (hpc : u.pc.toNat = 0x200 + j) : u.fetch = .ok (wordOfBytes bytes[j] bytes[j + 1]) := by
  obtain ⟨hfits, rfl⟩ := load_inv h
  exact fetch_of_mem hmem hpc (by unfold memorySize; omega) (Memory.read_writeAll_inside (Nat.lt_of_succ_lt hj))
    (Memory.read_writeAll_inside hj)

end

/-- Settles O59: the fetch reads the two bytes at PC, and each clause is what memory holds there. -/
theorem fetchSeesWrites : Obligations.FetchSeesWrites :=
  ⟨fun _ _ hmem hpc => fetch_of_mem hmem rfl hpc rfl rfl,
    fun _ _ _ _ h hmem hpc => fetch_after_call hmem h hpc,
    fun _ _ _ _ h hmem => ⟨fun hpc => fetch_after_ldB hmem h (k := 0) (by decide) hpc,
      fun hpc => fetch_after_ldB hmem h (k := 1) (by decide) hpc⟩,
    fun _ _ _ _ h hmem _ hk hpc => fetch_after_storeRegs hmem h hk hpc,
    fun _ _ _ h hmem hlow hhigh => fetch_after_cls hmem h hlow hhigh,
    fun _ _ _ _ _ _ h hmem _ _ hpx hpy => fetch_after_drw hmem h hpx hpy,
    fun _ _ _ _ h hmem _ hj hpc => fetch_after_load hmem h hj hpc⟩

end Sys2Proof.Machine
end
